-- ==== Sys2Proof/Word.lean ====
section
/-!
DEFINITION. The word of the machine and the address of a memory cell (spec 00_scope.md R9, R11, R14).
-/

namespace Sys2Proof

/-- A word: 16 bits, bit 15 the most significant, read as two's complement where it is read as signed (R11). -/
abbrev Word := BitVec 16

/-- An address: an integer in 0..65535, kept as its 16 bits because address arithmetic wraps (R9, R14). -/
abbrev Addr := BitVec 16

/-- `MEM_WORDS`: the number of memory cells (R9). -/
abbrev memWords : Nat := 65536

end Sys2Proof
end

