-- ==== Sys2Proof/Machine/Arith.lean ====
section
/-!
DEFINITION. The interpretations of a word and the wrapping arithmetic (spec 00_scope.md R12, R13, R14), each as
the exact integer result narrowed at the end.
-/

namespace Sys2Proof.Machine

/-- `uint(w)`: the unsigned value, in 0..65535 (R12). -/
def uint (w : Word) : Nat := w.toNat

/-- `sint(w)`: the signed value, in -32768..32767 (R12; two's complement, log entry 1). -/
def sint (w : Word) : Int := w.toInt

/-- `word(n)`: the word whose unsigned value is `n mod 65536` (R12). -/
def word (n : Int) : Word := BitVec.ofInt 16 n

/-- `x -w y = word(uint(x) - uint(y))` (R13): never traps and never saturates. -/
def wsub (x y : Word) : Word := word ((uint x : Int) - (uint y : Int))

/-- `x +w y = word(uint(x) + uint(y))` (R13). The core does not add; the toolchain's contracts do. -/
def wadd (x y : Word) : Word := word ((uint x : Int) + (uint y : Int))

/-- `-w x = word(0 - uint(x))` (R13). -/
def wneg (x : Word) : Word := word (0 - (uint x : Int))

/-- `a +a k = (a + k) mod 65536` (R14). -/
def aadd (a : Addr) (k : Nat) : Addr := BitVec.ofNat 16 ((a.toNat + k) % memWords)

end Sys2Proof.Machine
end

