-- ==== Sys2Proof/Machine/Flags.lean ====
section
/-!
DEFINITION. The condition the core computes. There are no flags (spec 10_state.md R39): the "≤ 0" test is used by
the step that computes it and is not kept.
-/

namespace Sys2Proof.Machine

/-- The subtract-and-branch ALU: `r = vb -w va` (40_subleq.md R113). -/
def aluResult (vb va : Word) : Word := wsub vb va

/-- The jump is taken if and only if `sint(r) <= 0` (40_subleq.md R115). -/
def jumpTaken (r : Word) : Bool := decide (sint r ≤ 0)

/-- The conditional-jump decoder: `C` if the jump is taken, else `pc +a 3` (40_subleq.md R116). -/
def nextPc (pc c : Addr) (r : Word) : Addr := if jumpTaken r then c else aadd pc 3

end Sys2Proof.Machine
end

