-- ==== Sys2Proof/Config.lean ====
section
/-!
DEFINITION. The parameters an implementation fixes (spec 00_scope.md R10): the three port addresses.
They are plain data and stay open: a state carries its configuration, and a statement about every state is a
statement about every configuration. `PC_RESET` and `IMAGE` are arguments of LOAD (Machine/HostInterface.lean).
-/

namespace Sys2Proof

/-- The port addresses `ADDR_BRK`, `ADDR_IOUT`, `ADDR_COUT` (R10, 41_ports_and_halt.md R140). -/
structure Config where
  /-- the halt port -/
  addrBrk  : Addr
  /-- the decimal output port -/
  addrIout : Addr
  /-- the character output port -/
  addrCout : Addr
  deriving DecidableEq, Repr

/-- The test configuration of 95_test_vectors.md, the only one the spec writes out. DESIGN CHOICE, unsafe
(log entry 4): `State.reset` carries it because a state must hold some value. "These are test values only.
They are not the hardware's values"; no statement rests on them. -/
def Config.testConfiguration : Config := { addrBrk := 0, addrIout := 1, addrCout := 2 }

end Sys2Proof
end

