-- ==== Sys2Proof/Machine/State.lean ====
section
/-!
DEFINITION. The architectural state (spec 10_state.md R30), as plain data, and its value right after reset.
-/

namespace Sys2Proof.Machine

/-- Which port an output event comes from (R38). -/
inductive OutKind where
  /-- `DEC`, from `IOUT` -/
  | dec
  /-- `CHAR`, from `COUT` -/
  | char
  deriving DecidableEq, Repr

/-- One output event `(kind, v)`, `v` the recovered word (R38, 41_ports_and_halt.md R146). -/
structure OutEvent where
  kind  : OutKind
  value : Word
  deriving DecidableEq, Repr

/-- The memory array (R31): the cells that differ from what an unlisted address reads as, each with its address,
addresses strictly rising (`Memory.wf` in Machine/Ops.lean). A cell holds a word, because a word is the
smallest thing an address names (20_memory.md R60; log entry 11). -/
abbrev Memory := List (Nat × Word)

/-- The state of the core: `(M, pc, halted, out)` of R30, and the port addresses it is built with. -/
structure State where
  /-- the memory array `M` (R31) -/
  mem    : Memory
  /-- the program counter, the address of the current triple's first word (R33) -/
  pc     : Addr
  /-- whether the run has ended (R37) -/
  halted : Bool
  /-- the output events emitted since LOAD, oldest first (R38) -/
  out    : List OutEvent
  /-- the port addresses (00_scope.md R10), a parameter that no step changes (log entry 4) -/
  config : Config
  deriving DecidableEq, Repr

/-- Why a step stops with a fault: nothing does. "No synchronous exceptions" (60_exceptions.md R220) and "No step
ends a run except by rule R142" (41_ports_and_halt.md R151). The type is empty (log entry 21). -/
inductive Fault where
  deriving DecidableEq, Repr

/-- Why an instruction is refused. -/
inductive Refusal where
  /-- `exec`'s arm for an instruction without a meaning; no arm raises it in this model. It would be safe. -/
  | notModelled (mnemonic : String)
  deriving DecidableEq, Repr

/-- The machine right after `LOAD(image, entry)` (R43): `halted` false and `out` empty as the spec says. The image
(all zero: nothing listed), the entry (0) and the port addresses are parameters of the spec without a value:
DESIGN CHOICE, unsafe (log entries 4, 6, 7). -/
def State.reset : State :=
  { mem := [], pc := 0, halted := false, out := [], config := Config.testConfiguration }

end Sys2Proof.Machine
end

