-- ==== Sys2Proof/Machine/Ops.lean ====
section
/-!
DEFINITION. The named operations over memory, pc, output and run state (spec 00_scope.md R15), and the port
dispatch (41_ports_and_halt.md R141).
The core takes no exception and returns from none (60_exceptions.md R220, R224, R225), so no operation here does.
-/

namespace Sys2Proof.Machine

/-- What an address that is not listed reads as: zero. DESIGN CHOICE, unsafe (log entry 7): the image is a
parameter, and "cells not listed" hold 0 as in 95_test_vectors.md. -/
def Memory.unlisted : Word := 0

/-- The word listed for the address `k`, or what an unlisted address reads as. -/
def Memory.lookup : Memory → Nat → Word
  | [], _ => Memory.unlisted
  | (k', v) :: m, k => if k' = k then v else Memory.lookup m k

/-- Take the entry for the address `k` out of the list. -/
def Memory.erase : Memory → Nat → Memory
  | [], _ => []
  | (k', v) :: m, k => if k' = k then Memory.erase m k else (k', v) :: Memory.erase m k

/-- Put an entry for the address `k` at its place in the list. -/
def Memory.insert : Memory → Nat → Word → Memory
  | [], k, v => [(k, v)]
  | (k', v') :: m, k, v => if k < k' then (k, v) :: (k', v') :: m else (k', v') :: Memory.insert m k v

/-- `MemRead(a, 1)`: the word in cell `a`. Every address exists, and reading has no side effect
(R15, 20_memory.md R63, R67). -/
def Memory.read (m : Memory) (a : Addr) : Word := Memory.lookup m a.toNat

/-- `MemWrite(a, 1, v)`: `M[a] <- v`. No cell is read-only (R15, 10_state.md R32). Writing what an unlisted
address reads as takes the entry out, so equal memories are equal lists. -/
def Memory.write (m : Memory) (a : Addr) (v : Word) : Memory :=
  if v = Memory.unlisted then Memory.erase m a.toNat
  else Memory.insert (Memory.erase m a.toNat) a.toNat v

/-- The canonical form: addresses strictly rising, each below 65536, and no entry equal to what an unlisted
address reads as. -/
abbrev Memory.wf (m : Memory) : Prop :=
  m.Pairwise (fun x y => x.1 < y.1) ∧ ∀ x ∈ m, x.1 < memWords ∧ x.2 ≠ Memory.unlisted

/-- `MemRead(a, 1)` on the state. Fetch, operand reads and the host's PEEK all use it (10_state.md R41). -/
def State.readWord (s : State) (a : Addr) : Word := Memory.read s.mem a

/-- `MemWrite(a, 1, v)` on the state. -/
def State.writeWord (s : State) (a : Addr) (v : Word) : State := { s with mem := Memory.write s.mem a v }

/-- `pc <- target` (R15). -/
def State.setPc (s : State) (target : Addr) : State := { s with pc := target }

/-- `emit(kind, v)`: append the output event (R15, 10_state.md R38). -/
def State.emit (s : State) (kind : OutKind) (v : Word) : State := { s with out := s.out ++ [⟨kind, v⟩] }

/-- `halted <- true` (R15, 10_state.md R37). -/
def State.halt (s : State) : State := { s with halted := true }

/-- The address is one of the two output ports (41_ports_and_halt.md R143, R144). -/
abbrev IsOutputPort (c : Config) (x : Addr) : Prop := x = c.addrIout ∨ x = c.addrCout

/-- The address is one of the three ports (41_ports_and_halt.md R140). -/
abbrev IsPort (c : Config) (x : Addr) : Prop := x = c.addrBrk ∨ IsOutputPort c x

/-- The recovered value `-w M[B]`, read after the result write (41_ports_and_halt.md R145). -/
def recoveredValue (s : State) (b : Addr) : Word := wneg (s.readWord b)

/-- `PortDispatch(B, r)` (41_ports_and_halt.md R141 to R144): the end of every step. The tests stand in the order
BRK, IOUT, COUT, which decides a configuration whose ports coincide (R148; log entry 5). The BRK cell is
not reset (R142); an output port's cell is (R143, R144). The pc is never changed. -/
def portDispatch (b : Addr) (s : State) : State :=
  if b = s.config.addrBrk then s.halt
  else if b = s.config.addrIout then (s.emit .dec (recoveredValue s b)).writeWord b (word 0)
  else if b = s.config.addrCout then (s.emit .char (recoveredValue s b)).writeWord b (word 0)
  else s

/-- The events of a step with destination `b` and result `r`: what the dispatch emits (R142 to R145, R148). -/
def portEvents (c : Config) (b : Addr) (r : Word) : List OutEvent :=
  if b = c.addrBrk then []
  else if b = c.addrIout then [⟨.dec, wneg r⟩]
  else if b = c.addrCout then [⟨.char, wneg r⟩]
  else []

/-- The word the destination cell ends a step with, when the result is `r`: what the dispatch leaves (R142 to R144). -/
def finalCell (c : Config) (b : Addr) (r : Word) : Word :=
  if b ≠ c.addrBrk ∧ IsOutputPort c b then 0 else r

end Sys2Proof.Machine
end

