-- ==== Sys2Proof/Machine/Operands.lean ====
section
/-!
DEFINITION. The operand forms. There is one: absolute direct (spec 40_subleq.md R125). The effective address is
the field exactly as fetched; no base, index, displacement, indirection, immediate or extension exists
(30_encoding.md R93, R94).
-/

namespace Sys2Proof.Machine

/-- `va`: the word in the operand cell `A` (R112). -/
def operandValue (s : State) (a : Addr) : Word := s.readWord a

/-- `vb`: the word in the destination cell `B`, before the result write (R112). -/
def destinationValue (s : State) (b : Addr) : Word := s.readWord b

end Sys2Proof.Machine
end

