-- ==== Sys2Proof/Machine/Subleq.lean ====
section
/-!
DEFINITION. The meaning of SUBLEQ (spec 40_subleq.md R110).
-/

namespace Sys2Proof.Machine

/-- What SUBLEQ computes, in the order of R110: operand reads (R112), ALU (R113), result write (R114), pc update from
the pc the step began with and the fetched `c` (R116), port dispatch on the fetched `b` (41_ports_and_halt.md
R141). `b` is the captured destination, the latch of 10_state.md R42. -/
def subleqState (a b c : Addr) (s : State) : State :=
  let r := aluResult (destinationValue s b) (operandValue s a)
  portDispatch b ((s.writeWord b r).setPc (nextPc s.pc c r))

/-- `SUBLEQ A, B, C` (R110). It never faults (60_exceptions.md R220). Its precondition `halted = false` is checked
where the step begins (`step`, log entry 15). -/
def execSubleq (a b c : Addr) (s : State) : Host.Outcome State Fault Refusal :=
  .next (subleqState a b c s)

end Sys2Proof.Machine
end

