-- ==== Sys2Proof/Syntax.lean ====
section
/-!
DEFINITION. The instruction set: one instruction, one row of spec/opcode_table.json (spec 00_scope.md R2, R3).
-/

namespace Sys2Proof

/-- The instructions of the core. -/
inductive Instr where
  /-- `SUBLEQ A, B, C` (40_subleq.md R110): `a` is the operand address, `b` the destination address,
  `c` the jump target, each an absolute address (30_encoding.md R93). -/
  | subleq (a b c : Addr)
  deriving DecidableEq, Repr

end Sys2Proof
end

