-- ==== Sys2Proof/WellFormed.lean ====
section
/-!
DEFINITION. Which instructions and which configurations are well formed.
-/

namespace Sys2Proof

/-- Every instruction is well formed: "No encoding is illegal, reserved, a hint or custom. Every value of every
field is legal" (30_encoding.md R96). -/
def Instr.wf : Instr → Bool
  | .subleq _ _ _ => true

/-- The three port addresses are pairwise distinct (00_scope.md R10, 41_ports_and_halt.md R140,
93_implementation_defined.md I5). The other constraint of R10, "in the reserved low region", names a region
whose bounds the spec does not give, so nothing checks it (log entry 23). -/
def Config.wf (c : Config) : Bool :=
  c.addrBrk != c.addrIout && c.addrBrk != c.addrCout && c.addrIout != c.addrCout

end Sys2Proof
end

