-- ==== Sys2Proof/Decode.lean ====
section
/-!
DEFINITION. From fetched words to an instruction and back (spec 30_encoding.md).
The decoder is total on any list of words. It rejects only a list too short to hold a triple, by name;
a step always fetches three words, so no step meets that rejection.
-/

namespace Sys2Proof

/-- `addr(w) = uint(w)`: the word's bit pattern read as an unsigned address (00_scope.md R14, decision D1;
log entry 2). -/
def addr (w : Word) : Addr := w

/-- The word that names an address: the inverse of `addr`. -/
def wordOfAddr (a : Addr) : Word := a

/-- Why a list of words is no instruction. -/
inductive DecodeError where
  /-- fewer than three words were given, and every instruction is exactly three words long (R92) -/
  | truncated (given : Nat)
  deriving DecidableEq, Repr

/-- What decoding a list of words answers. -/
inductive DecodeResult where
  /-- the instruction, and the words after it -/
  | ok (i : Instr) (rest : List Word)
  /-- no instruction, and why -/
  | rejected (e : DecodeError)
  deriving DecidableEq, Repr

/-- Every triple is a SUBLEQ: word 0 is `A`, word 1 is `B`, word 2 is `C` (R90, R93, R95). -/
def decodeTriple (w0 w1 w2 : Word) : Instr := .subleq (addr w0) (addr w1) (addr w2)

/-- Decode the instruction at the head of a list of words (R90, R92). -/
def decode : List Word → DecodeResult
  | w0 :: w1 :: w2 :: rest => .ok (decodeTriple w0 w1 w2) rest
  | ws => .rejected (.truncated ws.length)

/-- The words of an instruction, in increasing address order (R90). -/
def encode : Instr → List Word
  | .subleq a b c => [wordOfAddr a, wordOfAddr b, wordOfAddr c]

/-- The 48-bit pattern `T = {A, B, C}` of opcode_table.json, `A` in `T[47:32]`, `B` in `T[31:16]`, `C` in
`T[15:0]` (R91). -/
def tableWord : Instr → Nat
  | .subleq a b c => a.toNat * 2 ^ 32 + b.toNat * 2 ^ 16 + c.toNat

/-- The three words, in memory order, of the pattern `w` of which the table gives `nbits` bits (R91). The first
word is the pattern's most significant one: the spec's own numbering, which differs from a numbering that
counts up from the first word (log entry 10). -/
def wordsOfTable (nbits w : Nat) : List Word :=
  [BitVec.ofNat 16 (w % 2 ^ nbits / 2 ^ 32), BitVec.ofNat 16 (w % 2 ^ nbits / 2 ^ 16),
   BitVec.ofNat 16 (w % 2 ^ nbits)]

/-- The instruction the decoder reads from a table pattern. -/
def decodeTableWord (nbits w : Nat) : Option Instr :=
  match decode (wordsOfTable nbits w) with
  | .ok i _ => some i
  | .rejected _ => none

end Sys2Proof
end

