-- ==== Sys2Proof/Machine/Fetch.lean ====
section
/-!
DEFINITION. Fetching the triple at pc, the run state a step looks at first, and placing a triple at pc.
-/

namespace Sys2Proof.Machine

/-- Instruction fetch: the triple at `pc`, `pc +a 1`, `pc +a 2`, all three words before anything is written
(spec 40_subleq.md R111, 20_memory.md R64, R74). -/
def fetchInstr (s : State) : Instr :=
  decodeTriple (s.readWord s.pc) (s.readWord (aadd s.pc 1)) (s.readWord (aadd s.pc 2))

/-- The precondition of a step: `halted = false` (40_subleq.md R110). -/
def canStep (s : State) : Bool := !s.halted

/-- A STEP request to a halted core: it fetches nothing, writes nothing and emits nothing (40_subleq.md R122,
decision D14; log entry 9). -/
def stepHalted (s : State) : Host.Outcome State Fault Refusal := .next s

/-- Store a list of words in consecutive cells from `a` on, wrapping. -/
def placeWords : State → Addr → List Word → State
  | s, _, [] => s
  | s, a, w :: ws => placeWords (s.writeWord a w) (aadd a 1) ws

/-- The state with the words of a table pattern placed where the next step fetches, and able to take that step
(log entry 8). -/
def placeAtFetch (s : State) (nbits w : Nat) : State :=
  placeWords { s with halted := false } s.pc (wordsOfTable nbits w)

end Sys2Proof.Machine
end

