-- ==== Sys2Proof/Machine/Step.lean ====
section
/-!
DEFINITION. One step of the core (spec 40_subleq.md R110, R122), and placing the instruction it runs next.
-/

namespace Sys2Proof.Machine

/-- One STEP: if the core has not halted, fetch the triple at pc and execute it; otherwise nothing changes. -/
def step (s : State) : Host.Outcome State Fault Refusal :=
  if canStep s then exec (fetchInstr s) s else stepHalted s

/-- The state with a table pattern stored where `step` fetches its next instruction. It stands for the host's
LOAD of an image that holds it (log entry 8). -/
def State.withFetchWord (s : State) (nbits w : Nat) : State := placeAtFetch s nbits w

end Sys2Proof.Machine
end

