-- ==== Sys2Proof/Machine/Toolchain.lean ====
section
/-!
DEFINITION. What the spec fixes of the assembler (spec 42_assembler_pseudo.md): the register names and their cells,
the two target-word idioms, the contract of every mnemonic, and the three mnemonics whose triples are forced.
What it leaves open is a parameter, `Toolchain`. The assembler itself is outside the hardware's scope
(00_scope.md R7; log entry 20), and the core gives none of this a meaning.
-/

namespace Sys2Proof.Machine

/-- The seventeen register names (10_state.md R35). Each is a memory cell. -/
inductive RegName where
  | BRK | IOUT | COUT
  | P1 | N1 | O | J | K
  | A | B | S | R | A1 | A2 | X | Y | F
  deriving DecidableEq, Repr

/-- The categories of R35. -/
inductive RegCategory where
  | control | constant | scratch
  deriving DecidableEq, Repr

/-- The category of a register name (R35). -/
def regCategory : RegName → RegCategory
  | .BRK | .IOUT | .COUT => .control
  | .P1 | .N1 | .O | .J | .K => .constant
  | .A | .B | .S | .R | .A1 | .A2 | .X | .Y | .F => .scratch

/-- Relative target write: the `C` word, in a triple at `t`, that means "`n` triples after the one that follows"
(42_assembler_pseudo.md R178). -/
def relativeTarget (t : Addr) (n : Nat) : Word := wordOfAddr (aadd t (3 + 3 * n))

/-- Absolute offset write: the word at `w` with displacement `k` (R179). -/
def absoluteOffset (w : Addr) (k : Int) : Word := word ((w.toNat : Int) + k)

/-- The mnemonics by name, one per rule R182 to R197. There are sixteen. The spec's section 3 and 90_conflicts.md C1
speak of fifteen distinct names, which is the count with row 14 still read as `jmp`; once row 14 is `jsr`, as C1
resolves, the rules name sixteen. DESIGN CHOICE, safe (log entry 26): one constructor per rule. -/
inductive MnemonicName where
  | set | slt | clr | neg | add | sub | jmp | beq | blq | bgq | slq | inc | dec | jsr | cll | ret
  deriving DecidableEq, Repr

/-- The mnemonics with resolved operands, one constructor per rule R182 to R197: sixteen, where the spec's text says
fifteen (DESIGN CHOICE, safe, log entry 26; see `MnemonicName`). -/
inductive Mnemonic where
  | set (d s : Addr)
  | slt (d s : Addr)
  | clr (d : Addr)
  | neg (d : Addr)
  | add (d s : Addr)
  | sub (d s : Addr)
  | jmp (l : Addr)
  | beq (d l : Addr)
  | blq (d l : Addr)
  | bgq (d l : Addr)
  | slq (a b l : Addr)
  | inc (d : Addr)
  | dec (d : Addr)
  | jsr (l : Addr)
  | cll (l arg : Addr)
  | ret
  deriving DecidableEq, Repr

/-- The name of a mnemonic. -/
def mnemonicName : Mnemonic → MnemonicName
  | .set _ _ => .set
  | .slt _ _ => .slt
  | .clr _ => .clr
  | .neg _ => .neg
  | .add _ _ => .add
  | .sub _ _ => .sub
  | .jmp _ => .jmp
  | .beq _ _ => .beq
  | .blq _ _ => .blq
  | .bgq _ _ => .bgq
  | .slq _ _ _ => .slq
  | .inc _ => .inc
  | .dec _ => .dec
  | .jsr _ => .jsr
  | .cll _ _ => .cll
  | .ret => .ret

/-- The assembler's open parameters. They are arguments of what follows and no part of the core's state. -/
structure Toolchain where
  /-- `REG_ADDR(name)` (00_scope.md R10, 10_state.md R35, decision D19). The core's own parameters give the three
  control registers their cells, see `regCell`. -/
  regAddr : RegName → Addr
  /-- `J_VALUE` (R10, decision D22) -/
  jValue : Word
  /-- `K_VALUE` (R10, decision D22) -/
  kValue : Word
  /-- which of the constants `J` and `K` is the template offset of `jsr`; `cll` has the other (R195, R196,
  91_not_in_source.md N12) -/
  jsrUsesJ : Bool
  /-- `SIZE(mnemonic)`, in words (R180, decision D25) -/
  size : MnemonicName → Nat
  /-- the cell in which `cll` keeps its return address: whether it is `S` is not in the source (N12, 90_conflicts.md
  C7; log entry 27) -/
  cllReturn : Addr
  /-- the cell in which the callee at a label finds the argument of `cll`: not in the source (R196, N12; log
  entry 27) -/
  cllArgument : Addr → Addr

/-- The three sizes the spec derives (95_test_vectors.md E6, from R184, R187, R192): one triple each. -/
def Toolchain.wf (p : Toolchain) : Bool := p.size .clr == 3 && p.size .sub == 3 && p.size .slq == 3

/-- The memory cell a register name is bound to (R35): the core's port addresses for the control registers,
`REG_ADDR(name)` for the fourteen others. -/
def regCell (c : Config) (p : Toolchain) : RegName → Addr
  | .BRK => c.addrBrk
  | .IOUT => c.addrIout
  | .COUT => c.addrCout
  | .P1 => p.regAddr .P1
  | .N1 => p.regAddr .N1
  | .O => p.regAddr .O
  | .J => p.regAddr .J
  | .K => p.regAddr .K
  | .A => p.regAddr .A
  | .B => p.regAddr .B
  | .S => p.regAddr .S
  | .R => p.regAddr .R
  | .A1 => p.regAddr .A1
  | .A2 => p.regAddr .A2
  | .X => p.regAddr .X
  | .Y => p.regAddr .Y
  | .F => p.regAddr .F

/-- The value the assembler gives a register's cell in an image, where the spec states one (R35, R36). -/
def regImageValue (p : Toolchain) : RegName → Option Word
  | .P1 => some (word 1)
  | .N1 => some (word (-1))
  | .O => some (word (-32768))
  | .J => some p.jValue
  | .K => some p.kValue
  | .BRK | .IOUT | .COUT => none
  | .A | .B | .S | .R | .A1 | .A2 | .X | .Y | .F => none

/-- The assembler's constants are present at their registers' cells, which its code needs and the core does not protect
(70_reset_and_hazards.md R257). -/
def HoldsConstants (p : Toolchain) (σ : State) : Prop :=
  ∀ (r : RegName) (v : Word), regImageValue p r = some v → σ.readWord (regCell σ.config p r) = v

/-! ### Calls -/

/-- The two calling conventions (R195, R196). -/
inductive CallKind where
  | jsr | cll
  deriving DecidableEq, Repr

/-- Which call a mnemonic makes. -/
def callKind : Mnemonic → Option CallKind
  | .jsr _ => some .jsr
  | .cll _ _ => some .cll
  | .set _ _ | .slt _ _ | .clr _ | .neg _ | .add _ _ | .sub _ _ | .jmp _ | .beq _ _ => none
  | .blq _ _ | .bgq _ _ | .slq _ _ _ | .inc _ | .dec _ | .ret => none

/-- The cell that keeps the return address of a call: the register `S` for `jsr` (R195), an open place for `cll`
(R196; log entry 27). -/
def returnSlot (c : Config) (p : Toolchain) : CallKind → Addr
  | .jsr => regCell c p .S
  | .cll => p.cllReturn

/-- The register whose constant is the template offset of a call: `J` for one kind and `K` for the other (R195, R196). -/
def templateRegister (p : Toolchain) : CallKind → RegName
  | .jsr => if p.jsrUsesJ then .J else .K
  | .cll => if p.jsrUsesJ then .K else .J

/-- The first address after the words of the mnemonic at `t` (R175, R180). For `jsr` and `cll` it is the return
address (R197: "the instruction following"). -/
def following (p : Toolchain) (t : Addr) (m : Mnemonic) : Addr := aadd t (p.size (mnemonicName m))

/-- The calls made and not returned from, as far as the contract of `ret` goes: none, one, with the address of the
instruction following it, or more than one. No call stack is added: nesting is outside the contract (R197, decision
D26, item I9). -/
inductive CallState where
  | idle
  | outstanding (back : Addr)
  | nested
  deriving DecidableEq, Repr

/-- The call state after the mnemonic at `t`. -/
def callAfter (p : Toolchain) (t : Addr) (m : Mnemonic) (calls : CallState) : CallState :=
  match callKind m, calls with
  | some _, .idle => .outstanding (following p t m)
  | some _, .outstanding _ => .nested
  | some _, .nested => .nested
  | none, .outstanding back => if m = .ret then .idle else .outstanding back
  | none, .idle => .idle
  | none, .nested => .nested

/-- The mnemonics of a stretch of code with the addresses they start at, in the order in which they stand or run: the
instruction-address map of R181. -/
abbrev Code := List (Addr × Mnemonic)

/-- The call state after the mnemonics of `code` have run in its order. -/
def callsAfter (p : Toolchain) : Code → CallState → CallState
  | [], calls => calls
  | (t, m) :: rest, calls => callsAfter p rest (callAfter p t m calls)

/-! ### Contracts -/

/-- What a contract says a mnemonic does. -/
structure ContractEffect where
  /-- the cells the contract changes, with their new values; where two name one cell the later one counts -/
  writes : List (Addr × Word)
  /-- the output events it adds -/
  events : List OutEvent
  /-- whether it halts the core -/
  halts  : Bool
  /-- where execution goes on -/
  next   : Addr
  deriving DecidableEq, Repr

/-- Store the cells of a contract. -/
def applyWrites : List (Addr × Word) → State → State
  | [], σ => σ
  | (a, v) :: rest, σ => applyWrites rest (σ.writeWord a v)

/-- The effect of going on at `next` and doing nothing else. -/
def transferEffect (next : Addr) : ContractEffect := { writes := [], events := [], halts := false, next }

/-- The effect of the one triple a mnemonic is forced to emit, with result `r` for the cell `d`: on a port, what the core
does there (41_ports_and_halt.md R141). -/
def tripleEffect (c : Config) (d : Addr) (r : Word) (next : Addr) : ContractEffect :=
  { writes := [(d, finalCell c d r)], events := portEvents c d r, halts := decide (d = c.addrBrk), next }

/-- The effect of `d := v` by an expansion the spec leaves open. On a port the spec states none (R192: `slq` "is the only
mnemonic whose effect on the port cells is fully known"; log entry 28). A source operand that is a port is only read
here: no event and no halt. The spec does not say so of `set`, `slt` or `add` (DESIGN CHOICE, log entry 29). -/
def cellEffect (c : Config) (d : Addr) (v : Word) (next : Addr) : Option ContractEffect :=
  if IsPort c d then none else some { writes := [(d, v)], events := [], halts := false, next }

/-- The effect of `set d s` with `v = M[s]` (R182). On an output port whose cell holds 0 it adds exactly one event with
the value `v`, and the port's reset leaves 0. On BRK, or on an output port that holds another word, the spec
states no effect (log entry 28). -/
def setEffect (σ : State) (d : Addr) (v : Word) (next : Addr) : Option ContractEffect :=
  if d ≠ σ.config.addrBrk ∧ IsOutputPort σ.config d then
    if σ.readWord d = 0 then
      some { writes := [(d, word 0)],
             events := [⟨if d = σ.config.addrIout then .dec else .char, v⟩], halts := false, next }
    else none
  else cellEffect σ.config d v next

/-- The contract of the mnemonic at `t` in the state `σ` (R182 to R197); `none` where the spec states no effect. At -32768
`beq` and `bgq` do not transfer (90_conflicts.md C3). The three
branches on a port, and `set`, `slt`, `add` and `cll` with a port as source, only read it: no event, no halt, the port
unchanged. The spec does not say so, and a native test `(z, d, L)` would trigger the port (DESIGN CHOICE, log entry
29). `jsr` and `cll` leave the return address in their slot, and `cll` the argument's word where the callee finds it
(log entry 27). `ret` goes on at the instruction following the one outstanding call, whatever has become of the
slot; with none or with nested calls it has no contract (decision D26). -/
def contract (p : Toolchain) (t : Addr) (calls : CallState) (m : Mnemonic) (σ : State) :
    Option ContractEffect :=
  let after := following p t m
  match m with
  | .set d s => setEffect σ d (σ.readWord s) after
  | .slt d s =>
    cellEffect σ.config d (if sint (σ.readWord d) < sint (σ.readWord s) then word 1 else word 0) after
  | .clr d => some (tripleEffect σ.config d (word 0) after)
  | .neg d => cellEffect σ.config d (wneg (σ.readWord d)) after
  | .add d s => cellEffect σ.config d (wadd (σ.readWord d) (σ.readWord s)) after
  | .sub d s => some (tripleEffect σ.config d (wsub (σ.readWord d) (σ.readWord s)) after)
  | .jmp l => some (transferEffect l)
  | .beq d l => some (transferEffect (if σ.readWord d = 0 then l else after))
  | .blq d l => some (transferEffect (if sint (σ.readWord d) ≤ 0 then l else after))
  | .bgq d l => some (transferEffect (if 0 ≤ sint (σ.readWord d) then l else after))
  | .slq a b l =>
    let r := wsub (σ.readWord b) (σ.readWord a)
    some (tripleEffect σ.config b r (if sint r ≤ 0 then l else after))
  | .inc d => cellEffect σ.config d (wadd (σ.readWord d) (word 1)) after
  | .dec d => cellEffect σ.config d (wsub (σ.readWord d) (word 1)) after
  | .jsr l =>
    some { transferEffect l with writes := [(returnSlot σ.config p .jsr, wordOfAddr after)] }
  | .cll l arg =>
    some { transferEffect l with
           writes := [(p.cllArgument l, σ.readWord arg), (returnSlot σ.config p .cll, wordOfAddr after)] }
  | .ret =>
    match calls with
    | .outstanding back => some (transferEffect back)
    | .idle => none
    | .nested => none

/-- The cells a contract says keep their value (R182, R183, R189 to R191), scratch registers among them. -/
def keptCells : Mnemonic → List Addr
  | .set _ s => [s]
  | .slt _ s => [s]
  | .beq d _ => [d]
  | .blq d _ => [d]
  | .bgq d _ => [d]
  | .clr _ | .neg _ | .add _ _ | .sub _ _ | .jmp _ | .slq _ _ _ | .inc _ | .dec _ => []
  | .jsr _ | .cll _ _ | .ret => []

/-- The cell a mnemonic's contract assigns by name. A call assigns none: its slot and its argument's place are the
assembler's. -/
def destinations : Mnemonic → List Addr
  | .set d _ | .slt d _ | .clr d | .neg d | .add d _ | .sub d _ | .inc d | .dec d => [d]
  | .slq _ b _ => [b]
  | .jmp _ | .beq _ _ | .blq _ _ | .bgq _ _ | .jsr _ | .cll _ _ | .ret => []

/-- The cell of a scratch register (R35). -/
def IsScratchCell (c : Config) (p : Toolchain) (x : Addr) : Prop :=
  ∃ r : RegName, regCategory r = .scratch ∧ x = regCell c p r

/-- One of the words of the mnemonic at `t`. -/
def IsWordOf (p : Toolchain) (t : Addr) (m : Mnemonic) (x : Addr) : Prop :=
  ∃ k : Nat, k < p.size (mnemonicName m) ∧ x = aadd t k

/-- One of the words of the program's code. -/
def IsCodeWord (p : Toolchain) (code : Code) (x : Addr) : Prop := ∃ i ∈ code, IsWordOf p i.1 i.2 x

/-- The mnemonics that make up the call linkage. -/
def IsLinkage (m : Mnemonic) : Prop := callKind m ≠ none ∨ m = .ret

/-- A word of the linkage's trampolines: where their patch points lie (R179, R195, N12). -/
def IsPatchPoint (p : Toolchain) (code : Code) (x : Addr) : Prop :=
  ∃ i ∈ code, IsLinkage i.2 ∧ IsWordOf p i.1 i.2 x

/-- A scratch register's cell or one of the mnemonic's own words: what an open expansion may alter besides its
destination (R180, item I8; log entry 28). -/
def IsWorkCell (c : Config) (p : Toolchain) (t : Addr) (m : Mnemonic) (x : Addr) : Prop :=
  x ∉ keptCells m ∧ (IsScratchCell c p x ∨ IsWordOf p t m x)

/-- The cells a mnemonic may alter besides its destination, "only documented registers are clobbered as scratch" (R180):
none for the three whose triple is forced; the work cells for the others; for the linkage its patch points too,
and for `cll` the argument's place where that is a word of the code (log entry 28). -/
def MayAlter (c : Config) (p : Toolchain) (code : Code) (t : Addr) (m : Mnemonic) (x : Addr) : Prop :=
  match m with
  | .clr _ | .sub _ _ | .slq _ _ _ => False
  | .jsr _ | .ret => IsWorkCell c p t m x ∨ IsPatchPoint p code x
  | .cll l _ => IsWorkCell c p t m x ∨ IsPatchPoint p code x ∨ x = p.cllArgument l ∧ IsCodeWord p code x
  | .set _ _ | .slt _ _ | .neg _ | .add _ _ | .jmp _ | .beq _ _ | .blq _ _ | .bgq _ _ | .inc _ | .dec _ =>
    IsWorkCell c p t m x

/-- Going from `σ` to `σ'` is what the contract of the mnemonic at `t`, in the program `code`, allows its words to do. A
toolchain whose places for `cll` lie elsewhere than the conventions of R180 allow meets no contract there. -/
def MeetsContract (p : Toolchain) (code : Code) (t : Addr) (calls : CallState) (m : Mnemonic) (σ σ' : State) :
    Prop :=
  ∃ e : ContractEffect, contract p t calls m σ = some e ∧
    σ'.pc = e.next ∧ σ'.halted = e.halts ∧ σ'.out = σ.out ++ e.events ∧ σ'.config = σ.config ∧
    ∀ x : Addr,
      (x ∈ e.writes.map Prod.fst → σ'.readWord x = (applyWrites e.writes σ).readWord x) ∧
      (x ∉ destinations m → ¬ MayAlter σ.config p code t m x → σ'.readWord x = σ.readWord x)

/-- The one triple a mnemonic at `t` is forced to emit, where the spec forces one: `clr d` is `(d, d, next)` (R184),
`sub d s` is `(s, d, next)` (R187), `slq a b L` is `(a, b, L)` (R192, decision D21). The other expansions are not
in the source (91_not_in_source.md N8). -/
def forcedInstr (t : Addr) : Mnemonic → Option Instr
  | .clr d => some (.subleq d d (addr (relativeTarget t 0)))
  | .sub d s => some (.subleq s d (addr (relativeTarget t 0)))
  | .slq a b l => some (.subleq a b l)
  | .set _ _ | .slt _ _ | .neg _ | .add _ _ | .inc _ | .dec _ => none
  | .jmp _ | .beq _ _ | .blq _ _ | .bgq _ _ | .jsr _ | .cll _ _ | .ret => none

end Sys2Proof.Machine
end

