-- ==== Sys2Proof/Machine/HostInterface.lean ====
section
/-!
DEFINITION. The block interface (spec 00_scope.md R17, R18, 70_reset_and_hazards.md R250): the host's moves on the
core, and what an output event shows (41_ports_and_halt.md R146).
-/

namespace Sys2Proof.Machine

/-- An image: the words LOAD puts into memory. A cell not listed holds 0, the first listing of a cell counts, and
every array of 65536 words can be written so (log entry 22). -/
abbrev Image := List (Addr × Word)

/-- `image[a]`. -/
def Image.word : Image → Addr → Word
  | [], _ => Memory.unlisted
  | (k, v) :: rest, a => if k = a then v else Image.word rest a

/-- The memory that holds an image. -/
def Image.toMemory : Image → Memory
  | [] => []
  | (k, v) :: rest => Memory.write (Image.toMemory rest) k v

/-- `LOAD(image, entry)`, the only reset the core has: all state at once (70_reset_and_hazards.md R250,
10_state.md R43). The port addresses are how the core is built, and stay. -/
def State.load (image : Image) (entry : Addr) (s : State) : State :=
  { mem := Image.toMemory image, pc := entry, halted := false, out := [], config := s.config }

/-- The core as the host sees it: the core's state, and whether it has stepped since it was loaded. The second
belongs to the interface's protocol, not to the core (R17 "before the first step"; log entry 17). -/
structure Session where
  core    : State
  stepped : Bool
  deriving DecidableEq, Repr

/-- A run is in progress: a step has been taken since LOAD and the core has not halted (R17). -/
def Session.running (σ : Session) : Bool := σ.stepped && !σ.core.halted

/-- The host's operations (R17). -/
inductive HostOp where
  /-- `LOAD(image, entry)` -/
  | load (image : Image) (entry : Addr)
  /-- `STEP` -/
  | step
  /-- `HALTED` -/
  | readHalted
  /-- `PEEK(a)` -/
  | peek (a : Addr)
  /-- `PC` -/
  | readPc
  deriving DecidableEq, Repr

/-- What the core answers the host (R17). -/
inductive HostReply where
  | loaded
  /-- the OUT events the step produced -/
  | stepped (events : List OutEvent)
  | halted (h : Bool)
  | word (w : Word)
  | address (a : Addr)
  deriving DecidableEq, Repr

/-- The events a step has added to the output (R17 `OUT`). -/
def newEvents (s t : State) : List OutEvent := t.out.drop s.out.length

/-- A STEP request: one step of the core, which on a halted core has no effect (40_subleq.md R122), and the events
it produced. -/
def hostStep (σ : Session) : Option (Session × HostReply) :=
  match step σ.core with
  | .next t => some (⟨t, σ.stepped || canStep σ.core⟩, .stepped (newEvents σ.core t))
  | .fault _ => none
  | .refused _ => none

/-- The host's moves; `none` where a move is not allowed. LOAD is allowed only while no run is in progress (R17,
R18). The reads are always allowed, since no state is visible inside a step (20_memory.md R66). -/
def hostOp (op : HostOp) (σ : Session) : Option (Session × HostReply) :=
  match op with
  | .load image entry => if σ.running then none else some (⟨σ.core.load image entry, false⟩, .loaded)
  | .step => hostStep σ
  | .readHalted => some (σ, .halted σ.core.halted)
  | .peek a => some (σ, .word (σ.core.readWord a))
  | .readPc => some (σ, .address σ.core.pc)

/-- What the host shows for an event (41_ports_and_halt.md R146): the value, not its digits or glyph. -/
inductive Shown where
  /-- the decimal integer -/
  | integer (n : Int)
  /-- the character U+`scalar` -/
  | character (scalar : Nat)
  deriving DecidableEq, Repr

/-- U+FFFD, the replacement character (R146, from general knowledge; log entry 13). -/
def replacementScalar : Nat := 0xFFFD

/-- The value shown for an event (R146, decision D8): `DEC` the signed integer; `CHAR` the character U+`uint(v)` if
`sint(v) >= 0`, else the replacement character. -/
def OutEvent.shown (e : OutEvent) : Shown :=
  match e.kind with
  | .dec => .integer (sint e.value)
  | .char => .character (if 0 ≤ sint e.value then uint e.value else replacementScalar)

end Sys2Proof.Machine
end

