-- ==== Sys2Proof/Safety.lean ====
section
/-!
DEFINITION. The terms claims are stated in: runs, what a step is about to do, and what a well-formed state is.
-/

namespace Sys2Proof.Machine

/-- `n` granted STEP requests, stopping at the first fault or refusal (spec 00_scope.md R19: a run is the sequence of
states the steps produce). -/
def runSteps : Nat → State → Host.Outcome State Fault Refusal
  | 0, s => .next s
  | n + 1, s =>
    match step s with
    | .next t => runSteps n t
    | .fault r => .fault r
    | .refused r => .refused r

/-- The `A` of the triple at pc. -/
def fetchedA (s : State) : Addr := addr (s.readWord s.pc)

/-- The `B` of the triple at pc: the destination the next step captures (40_subleq.md R111). -/
def fetchedB (s : State) : Addr := addr (s.readWord (aadd s.pc 1))

/-- The `C` of the triple at pc. -/
def fetchedC (s : State) : Addr := addr (s.readWord (aadd s.pc 2))

/-- The next step writes the cell `x`: the core is running and its destination is `x` (40_subleq.md R114). -/
abbrev WritesNext (s : State) (x : Addr) : Prop := s.halted = false ∧ fetchedB s = x

/-- The state is well formed: its memory is in canonical form and its port addresses are pairwise distinct. -/
abbrev WellFormedState (s : State) : Prop := Memory.wf s.mem ∧ s.config.wf = true

end Sys2Proof.Machine
end

