-- ==== Sys2Proof/Certificates/Slice0/Obligations.lean ====
section
/-!
DEFINITION. The statements for the provers. Each quantifies over every state, hence over every memory, every output
history and every configuration of the port addresses; none rests on a value of `State.reset` but the two that
say so.
-/

open Sys2Proof Sys2Proof.Machine

/-! ### Decoding and the step -/

/-- The step reads the three words at `pc`, `pc +a 1`, `pc +a 2` and runs the instruction they decode to; nothing is
added around `exec` (40_subleq.md R110, R111). -/
def Obligations.StepRunsTheDecodedTriple : Prop :=
  ∀ (s : State) (i : Instr) (rest : List Word), s.halted = false →
    decode [s.readWord s.pc, s.readWord (aadd s.pc 1), s.readWord (aadd s.pc 2)] = .ok i rest →
    i.wf = true →
    step s = exec i s

/-- Words written out from 30_encoding.md R90, R91, R93, R96 and vectors V1, V11, V20, P4 decode to their triples. -/
def Obligations.SpecWordsDecodeToTheirTriples : Prop :=
  decode [0x000A, 0x000B, 0x00C8] = .ok (.subleq 10 11 200) [] ∧
  decode [0xFFFF, 0xFFFE, 0xFFFD] = .ok (.subleq 65535 65534 65533) [] ∧
  decode [0x0000, 0x0000, 0x0000] = .ok (.subleq 0 0 0) [] ∧
  decode [0x000C, 0x000D, 0xFFFE, 0x1234] = .ok (.subleq 12 13 65534) [0x1234] ∧
  decodeTableWord 48 0x000A000B00C8 = some (.subleq 10 11 200)

/-- Table patterns and instructions, and word lists and instructions, correspond one to one (30_encoding.md R91,
R92, R95): every 48-bit pattern decodes, and no bit of a pattern or a word is dropped. -/
def Obligations.TableWordsAndInstructionsAgree : Prop :=
  (∀ i : Instr, tableWord i < 2 ^ 48 ∧ decodeTableWord 48 (tableWord i) = some i) ∧
  (∀ w : Nat, w < 2 ^ 48 → ∃ a b c : Addr, decodeTableWord 48 w = some (.subleq a b c) ∧
    tableWord (.subleq a b c) = w ∧
    a.toNat = w / 2 ^ 32 ∧ b.toNat = w / 2 ^ 16 % 2 ^ 16 ∧ c.toNat = w % 2 ^ 16) ∧
  (∀ (i : Instr) (rest : List Word), decode (encode i ++ rest) = .ok i rest) ∧
  (∀ (ws rest : List Word) (i : Instr), decode ws = .ok i rest → ws = encode i ++ rest)

/-- A table pattern placed for the next fetch is what the next step runs, and placing it changes nothing else but
the run state (log entry 8). -/
def Obligations.PlacedTableWordIsTheNextInstruction : Prop :=
  ∀ (s : State) (w : Nat), ∃ i : Instr, decodeTableWord 48 w = some i ∧
    step (s.withFetchWord 48 w) = exec i (s.withFetchWord 48 w) ∧
    (s.withFetchWord 48 w).pc = s.pc ∧ (s.withFetchWord 48 w).out = s.out ∧
    (s.withFetchWord 48 w).config = s.config ∧
    ∀ x : Addr, x ≠ s.pc → x ≠ aadd s.pc 1 → x ≠ aadd s.pc 2 →
      (s.withFetchWord 48 w).readWord x = s.readWord x

/-- One step has exactly the effect of the pseudocode of 40_subleq.md R110 and 41_ports_and_halt.md R141. The order
of the accesses is the spec's decision D2 (log entry 3), the reading of the words as addresses its decision D1
(log entry 2). -/
def Obligations.StepHasTheWholeEffectOfTheRule : Prop :=
  ∀ s : State, s.halted = false →
    let a := addr (s.readWord s.pc)
    let b := addr (s.readWord (aadd s.pc 1))
    let c := addr (s.readWord (aadd s.pc 2))
    let r := wsub (s.readWord b) (s.readWord a)
    ∃ t : State, step s = .next t ∧
      t.pc = (if sint r ≤ 0 then c else aadd s.pc 3) ∧
      (∀ x : Addr, t.readWord x =
        if x = b then (if b ≠ s.config.addrBrk ∧ IsOutputPort s.config b then 0 else r)
        else s.readWord x) ∧
      (t.halted = true ↔ b = s.config.addrBrk) ∧
      t.out = s.out ++
        (if b = s.config.addrBrk then []
         else if b = s.config.addrIout then [⟨.dec, wneg r⟩]
         else if b = s.config.addrCout then [⟨.char, wneg r⟩]
         else []) ∧
      t.config = s.config

/-- A halted core takes no step: not one, not many, and no host operation but LOAD changes it (40_subleq.md R122,
the spec's decision D14, log entry 9). -/
def Obligations.HaltedCoreTakesNoStep : Prop :=
  (∀ s : State, s.halted = true → ∀ n : Nat, runSteps n s = .next s) ∧
  (∀ (σ σ' : Session) (op : HostOp) (reply : HostReply), σ.core.halted = true →
    hostOp op σ = some (σ', reply) →
    (σ'.core = σ.core ∨ ∃ image entry, op = .load image entry) ∧
    (op = .step → σ' = σ ∧ reply = .stepped []))

/-! ### The stages of SUBLEQ -/

/-- SUBLEQ writes the wrapped difference to its destination on every step, taken or not, and to no other cell; on an
output port the dispatch then writes 0 (40_subleq.md R113, R114). -/
def Obligations.SubleqWritesTheWrappedDifference : Prop :=
  ∀ (s : State) (a b c : Addr), ∃ t : State, exec (.subleq a b c) s = .next t ∧
    (let r := word (sint (s.readWord b) - sint (s.readWord a))
     r = word ((uint (s.readWord b) : Int) - (uint (s.readWord a) : Int)) ∧
     ∀ x : Addr, t.readWord x =
       if x = b then (if b ≠ s.config.addrBrk ∧ IsOutputPort s.config b then 0 else r)
       else s.readWord x)

/-- The jump is taken if and only if the new result is zero or negative, and otherwise pc moves on by three modulo
65536, whatever the port dispatch does (40_subleq.md R115, R116). -/
def Obligations.JumpFollowsTheNewResult : Prop :=
  ∀ (s : State) (a b c : Addr), ∃ t : State, exec (.subleq a b c) s = .next t ∧
    (let r := wsub (s.readWord b) (s.readWord a)
     (sint r ≤ 0 → t.pc = c) ∧
     (0 < sint r → t.pc.toNat = (s.pc.toNat + 3) % 65536) ∧
     (sint r ≤ 0 ↔ r = 0 ∨ r.getLsbD 15 = true))

/-- What SUBLEQ leaves unchanged: every cell but the destination, the configuration, the run state unless the
destination is BRK, the output unless it is an output port, and never the events already emitted. -/
def Obligations.SubleqFrame : Prop :=
  ∀ (s t : State) (a b c : Addr), exec (.subleq a b c) s = .next t →
    (∀ x : Addr, x ≠ b → t.readWord x = s.readWord x) ∧
    t.config = s.config ∧
    (b ≠ s.config.addrBrk → t.halted = s.halted) ∧
    (b = s.config.addrBrk ∨ ¬ IsOutputPort s.config b → t.out = s.out) ∧
    s.out <+: t.out

/-- When `A = B` the cell becomes 0 and the jump is always taken (40_subleq.md R117, which the spec derives). -/
def Obligations.SelfSubtractionClearsAndJumps : Prop :=
  ∀ (s : State) (a c : Addr), ∃ t : State, exec (.subleq a a c) s = .next t ∧
    t.readWord a = 0 ∧ t.pc = c

/-- Overflow wraps, the sign may differ from the exact difference's, and the jump follows the wrapped word
(40_subleq.md R118, which the spec derives). -/
def Obligations.OverflowWrapsAndDecidesTheJump : Prop :=
  ∀ (s : State) (a b c : Addr), ∃ t : State, exec (.subleq a b c) s = .next t ∧
    (let vb := s.readWord b
     let va := s.readWord a
     let exact := sint vb - sint va
     let r := wsub vb va
     (¬ IsOutputPort s.config b → t.readWord b = r) ∧
     (-32768 ≤ exact → exact ≤ 32767 → sint r = exact) ∧
     (32767 < exact → sint r = exact - 65536 ∧ t.pc = c) ∧
     (exact < -32768 → sint r = exact + 65536 ∧ t.pc = aadd s.pc 3) ∧
     t.pc = (if sint r ≤ 0 then c else aadd s.pc 3) ∧
     (vb = word 32767 → va = word (-1) → r = word (-32768) ∧ t.pc = c) ∧
     (vb = word (-32768) → va = word 1 → r = word 32767 ∧ t.pc = aadd s.pc 3))

/-- The triple's words and the fall-through pc wrap at the top of memory (20_memory.md R64, 40_subleq.md R120). -/
def Obligations.TripleAndFallThroughWrapAtTheTop : Prop :=
  (∀ s : State, s.halted = false →
    step s = exec (.subleq (addr (s.readWord s.pc))
      (addr (s.readWord (BitVec.ofNat 16 ((s.pc.toNat + 1) % 65536))))
      (addr (s.readWord (BitVec.ofNat 16 ((s.pc.toNat + 2) % 65536))))) s ∧
    (s.pc = 65534 → step s = exec (.subleq (addr (s.readWord 65534)) (addr (s.readWord 65535))
      (addr (s.readWord 0))) s) ∧
    (s.pc = 65535 → step s = exec (.subleq (addr (s.readWord 65535)) (addr (s.readWord 0))
      (addr (s.readWord 1))) s)) ∧
  (∀ (s : State) (a b c : Addr), 0 < sint (wsub (s.readWord b) (s.readWord a)) →
    ∃ t : State, exec (.subleq a b c) s = .next t ∧
      (s.pc = 65534 → t.pc = 1) ∧ (s.pc = 65535 → t.pc = 2))

/-- A step that writes one of its own words still uses the words it fetched, for the operands, the jump and the port
dispatch; the next fetch of that word sees the change (20_memory.md R74, the spec's decision D2, log entry 3). -/
def Obligations.StepUsesTheWordsItFetched : Prop :=
  ∀ s : State, s.halted = false →
    let a := fetchedA s
    let b := fetchedB s
    let c := fetchedC s
    let r := wsub (s.readWord b) (s.readWord a)
    let final := if b ≠ s.config.addrBrk ∧ IsOutputPort s.config b then 0 else r
    (b = s.pc ∨ b = aadd s.pc 1 ∨ b = aadd s.pc 2) →
    ∃ t : State, step s = .next t ∧
      t.pc = (if sint r ≤ 0 then c else aadd s.pc 3) ∧
      (t.halted = true ↔ b = s.config.addrBrk) ∧
      (t.out ≠ s.out ↔ b ≠ s.config.addrBrk ∧ IsOutputPort s.config b) ∧
      t.readWord b = final ∧
      (t.pc = s.pc →
        fetchedA t = (if b = s.pc then addr final else a) ∧
        fetchedB t = (if b = aadd s.pc 1 then addr final else b) ∧
        fetchedC t = (if b = aadd s.pc 2 then addr final else c))

/-- A word written by one step is fetched by the next step that reaches it (20_memory.md R73, 40_subleq.md R119). -/
def Obligations.PatchedWordIsFetchedByTheNextStep : Prop :=
  ∀ (s t : State) (k : Nat), s.halted = false → step s = .next t → t.halted = false → k < 3 →
    aadd t.pc k = fetchedB s →
    let w := if IsOutputPort s.config (fetchedB s) then 0
      else wsub (s.readWord (fetchedB s)) (s.readWord (fetchedA s))
    step t = exec (.subleq
      (if k = 0 then addr w else addr (s.readWord t.pc))
      (if k = 1 then addr w else addr (s.readWord (aadd t.pc 1)))
      (if k = 2 then addr w else addr (s.readWord (aadd t.pc 2)))) t

/-- The special jump targets: the fall-through address, the triple's own address, and the one-instruction loop
(40_subleq.md R121, which the spec derives). -/
def Obligations.SpecialTargetsAndTheOneInstructionLoop : Prop :=
  (∀ s : State, s.halted = false → fetchedC s = aadd s.pc 3 →
    ∃ t : State, step s = .next t ∧ t.pc = aadd s.pc 3) ∧
  (∀ s : State, s.halted = false → fetchedC s = s.pc →
    sint (wsub (s.readWord (fetchedB s)) (s.readWord (fetchedA s))) ≤ 0 →
    ∃ t : State, step s = .next t ∧ t.pc = s.pc ∧
      (fetchedB s ≠ s.pc → fetchedB s ≠ aadd s.pc 1 → fetchedB s ≠ aadd s.pc 2 →
        fetchedA t = fetchedA s ∧ fetchedB t = fetchedB s ∧ fetchedC t = fetchedC s)) ∧
  (∀ (s : State) (n : Nat), s.halted = false → fetchedA s = fetchedB s → fetchedC s = s.pc →
    fetchedB s ≠ s.pc → fetchedB s ≠ aadd s.pc 1 → fetchedB s ≠ aadd s.pc 2 →
    fetchedB s ≠ s.config.addrBrk →
    ∃ t : State, runSteps n s = .next t ∧ t.pc = s.pc ∧ t.halted = false ∧
      t.out = s.out ++
        (if fetchedB s = s.config.addrIout then List.replicate n ⟨.dec, 0⟩
         else if fetchedB s = s.config.addrCout then List.replicate n ⟨.char, 0⟩
         else []))

/-- No cell is read-only or protected: any cell but an output port can be given any value by one SUBLEQ whose
operand cell holds the right difference (10_state.md R32, 20_memory.md R69, 60_exceptions.md R227). -/
def Obligations.EveryCellCanBeGivenEveryValue : Prop :=
  ∀ (s : State) (a b c : Addr) (v : Word), a ≠ b → s.readWord a = wsub (s.readWord b) v →
    ∃ t : State, exec (.subleq a b c) s = .next t ∧
      t.readWord b = (if b ≠ s.config.addrBrk ∧ IsOutputPort s.config b then 0 else v) ∧
      t.readWord a = s.readWord a

/-! ### The ports -/

/-- A step with `B = ADDR_BRK` completes, halts the core, emits nothing and keeps the result in the cell
(41_ports_and_halt.md R142; that the cell keeps the result is the spec's decision D6, log entry 14). -/
def Obligations.BrkHaltsAfterCompletingTheStep : Prop :=
  ∀ (s : State) (a c : Addr), ∃ t : State, exec (.subleq a s.config.addrBrk c) s = .next t ∧
    (let r := wsub (s.readWord s.config.addrBrk) (s.readWord a)
     t.halted = true ∧
     t.readWord s.config.addrBrk = r ∧
     t.pc = (if sint r ≤ 0 then c else aadd s.pc 3) ∧
     t.out = s.out ∧
     step t = .next t)

/-- A step with `B = ADDR_IOUT` emits `(DEC, v)` and resets the cell, every time (41_ports_and_halt.md R143). -/
def Obligations.IoutEmitsTheRecoveredValueAndResets : Prop :=
  ∀ (s : State) (a c : Addr), s.config.wf = true →
    ∃ t : State, exec (.subleq a s.config.addrIout c) s = .next t ∧
      (let v := wneg (wsub (s.readWord s.config.addrIout) (s.readWord a))
       t.out = s.out ++ [⟨.dec, v⟩] ∧
       t.readWord s.config.addrIout = 0 ∧
       t.halted = s.halted)

/-- A step with `B = ADDR_COUT` emits `(CHAR, v)` and resets the cell, every time (41_ports_and_halt.md R144). What
character the host shows for `v` is the next statement's matter. -/
def Obligations.CoutEmitsTheRecoveredValueAndResets : Prop :=
  ∀ (s : State) (a c : Addr), s.config.wf = true →
    ∃ t : State, exec (.subleq a s.config.addrCout c) s = .next t ∧
      (let v := wneg (wsub (s.readWord s.config.addrCout) (s.readWord a))
       t.out = s.out ++ [⟨.char, v⟩] ∧
       t.readWord s.config.addrCout = 0 ∧
       t.halted = s.halted)

/-- What the host shows for an event: the signed integer of a DEC; for a CHAR the character U+`uint(v)` when
`sint(v) >= 0` and the replacement character otherwise, always a Unicode scalar value (41_ports_and_halt.md
R146; the reading of negative values is the spec's decision D8 and U+FFFD its general knowledge, log entry 13). -/
def Obligations.HostShowsAScalarValueForEveryEvent : Prop :=
  ∀ v : Word,
    OutEvent.shown ⟨.dec, v⟩ = .integer (sint v) ∧ -32768 ≤ sint v ∧ sint v ≤ 32767 ∧
    ∃ n : Nat, OutEvent.shown ⟨.char, v⟩ = .character n ∧
      (n ≤ 0xD7FF ∨ (0xE000 ≤ n ∧ n ≤ 0x10FFFF)) ∧
      (0 ≤ sint v → n = uint v ∧ (n : Int) = sint v) ∧ (sint v < 0 → n = 0xFFFD)

/-- The recovered value is the wrapped negation of the result, and from a port cell that holds 0 it is the operand
itself, the minimum word included (41_ports_and_halt.md R145; the minimum word is the spec's decision D7, log entry
12). -/
def Obligations.RecoveredValueUndoesTheSubtraction : Prop :=
  ∀ (s : State) (a b c : Addr), s.config.wf = true → IsOutputPort s.config b →
    ∃ (t : State) (e : OutEvent), exec (.subleq a b c) s = .next t ∧ t.out = s.out ++ [e] ∧
      (let r := wsub (s.readWord b) (s.readWord a)
       e.value = wneg r ∧
       (r = word (-32768) → e.value = word (-32768)) ∧
       (r ≠ word (-32768) → sint e.value = - sint r) ∧
       (s.readWord b = 0 → e.value = s.readWord a))

/-- From a port cell that holds `p` the event is the operand less `p`, so it is the operand only when `p` is 0, and
the cell then holds 0 (70_reset_and_hazards.md R254, which the spec derives). -/
def Obligations.FirstOutputIsOffByTheCellsValue : Prop :=
  ∀ (s : State) (a b c : Addr) (p x : Word), s.config.wf = true → IsOutputPort s.config b →
    s.readWord b = p → s.readWord a = x →
    ∃ (t : State) (e : OutEvent), exec (.subleq a b c) s = .next t ∧ t.out = s.out ++ [e] ∧
      e.value = wneg (wsub p x) ∧ e.value = wsub x p ∧ (e.value = x ↔ p = 0) ∧ t.readWord b = 0

/-- Only the destination address triggers a port: reading or fetching a port cell does nothing, an output port that
is the destination ends the step at 0, and no port cell is changed otherwise (41_ports_and_halt.md R147, which the
spec derives, and its decision D18, log entry 24). -/
def Obligations.OnlyTheDestinationTriggersAPort : Prop :=
  ∀ s : State, s.halted = false → ∃ t : State, step s = .next t ∧
    (¬ IsPort s.config (fetchedB s) → t.out = s.out ∧ t.halted = false ∧
      t.readWord (fetchedB s) = wsub (s.readWord (fetchedB s)) (s.readWord (fetchedA s))) ∧
    (fetchedB s ≠ s.config.addrBrk → IsOutputPort s.config (fetchedB s) →
      t.readWord (fetchedB s) = 0) ∧
    (∀ p : Addr, IsPort s.config p → p ≠ fetchedB s → t.readWord p = s.readWord p)

/-- A step triggers at most one port, and coinciding ports are tried in the order BRK, IOUT, COUT
(41_ports_and_halt.md R148, the spec's decision D3, log entry 5). -/
def Obligations.AtMostOnePortInTheOrderBrkIoutCout : Prop :=
  ∀ (s : State) (a b c : Addr), ∃ t : State, exec (.subleq a b c) s = .next t ∧
    (let v := wneg (wsub (s.readWord b) (s.readWord a))
     (b = s.config.addrBrk → t.halted = true ∧ t.out = s.out) ∧
     (b ≠ s.config.addrBrk → b = s.config.addrIout →
       t.halted = s.halted ∧ t.out = s.out ++ [⟨.dec, v⟩]) ∧
     (b ≠ s.config.addrBrk → b ≠ s.config.addrIout → b = s.config.addrCout →
       t.halted = s.halted ∧ t.out = s.out ++ [⟨.char, v⟩]) ∧
     (¬ IsPort s.config b → t.halted = s.halted ∧ t.out = s.out))

/-- Every step of a running core answers a next state, and ends the run only when its destination is BRK
(41_ports_and_halt.md R151). -/
def Obligations.EveryStepGoesOnUnlessBrk : Prop :=
  ∀ s : State, s.halted = false → ∃ t : State, step s = .next t ∧
    (t.halted = true ↔ fetchedB s = s.config.addrBrk)

/-! ### Output, runs and the host -/

/-- The output starts empty at LOAD, and a step appends the one event of its port, or nothing (10_state.md R38,
the spec's decision D9, log entry 13). -/
def Obligations.EachStepAppendsItsOneEvent : Prop :=
  (∀ (s : State) (image : Image) (entry : Addr), (s.load image entry).out = []) ∧
  (∀ s t : State, s.config.wf = true → step s = .next t →
    let v := wneg (wsub (s.readWord (fetchedB s)) (s.readWord (fetchedA s)))
    (t.out = s.out ∧ (s.halted = true ∨ ¬ IsOutputPort s.config (fetchedB s))) ∨
    (t.out = s.out ++ [⟨.dec, v⟩] ∧ s.halted = false ∧ fetchedB s = s.config.addrIout) ∨
    (t.out = s.out ++ [⟨.char, v⟩] ∧ s.halted = false ∧ fetchedB s = s.config.addrCout))

/-- A run has ended exactly when some step of it had BRK as its destination, and its final state is the state right
after that step (41_ports_and_halt.md R149, the spec's decision D24). -/
def Obligations.RunEndsExactlyAtTheBrkStep : Prop :=
  ∀ (n : Nat) (s t : State), s.halted = false → runSteps n s = .next t →
    (t.halted = true ↔ ∃ (k : Nat) (u : State), k < n ∧ runSteps k s = .next u ∧
      WritesNext u u.config.addrBrk) ∧
    (∀ (k : Nat) (u : State), k < n → runSteps k s = .next u → WritesNext u u.config.addrBrk →
      step u = .next t)

/-- Every read returns the most recent write to that cell, or the image's word if there was none since LOAD
(20_memory.md R70). The 0 at an output port is the dispatch's reset (41_ports_and_halt.md R141). -/
def Obligations.ReadsReturnTheMostRecentWrite : Prop :=
  (∀ (n : Nat) (s t : State) (image : Image) (entry x : Addr),
    runSteps n (s.load image entry) = .next t →
    (∀ (k : Nat) (u : State), k < n → runSteps k (s.load image entry) = .next u → ¬ WritesNext u x) →
    t.readWord x = Image.word image x) ∧
  (∀ (n : Nat) (u v t : State) (x : Addr), WritesNext u x → step u = .next v →
    runSteps n v = .next t →
    (∀ (k : Nat) (w : State), k < n → runSteps k v = .next w → ¬ WritesNext w x) →
    t.readWord x = (if x ≠ u.config.addrBrk ∧ IsOutputPort u.config x then 0
      else wsub (u.readWord x) (u.readWord (fetchedA u))))

/-- After any number of steps from any LOAD, each output port's cell holds 0 or still its image value
(70_reset_and_hazards.md R255, which the spec derives). -/
def Obligations.OutputPortCellsHoldZeroOrTheirImageValue : Prop :=
  ∀ (n : Nat) (s t : State) (image : Image) (entry p : Addr), s.config.wf = true →
    IsOutputPort s.config p → runSteps n (s.load image entry) = .next t →
    (t.readWord p = 0 ∨ t.readWord p = Image.word image p) ∧
    ((∃ (k : Nat) (u : State), k < n ∧ runSteps k (s.load image entry) = .next u ∧ WritesNext u p) →
      t.readWord p = 0)

/-- LOAD sets all state at once, and is not allowed while a run is in progress (70_reset_and_hazards.md R250,
10_state.md R43, the spec's decisions D5 and D27). The port addresses are the model's parameter and stay (log
entry 4). -/
def Obligations.LoadSetsAllState : Prop :=
  (∀ (s : State) (image : Image) (entry : Addr),
    (∀ a : Addr, (s.load image entry).readWord a = Image.word image a) ∧
    (s.load image entry).pc = entry ∧ (s.load image entry).halted = false ∧
    (s.load image entry).out = [] ∧ (s.load image entry).config = s.config) ∧
  (∀ (σ : Session) (image : Image) (entry : Addr),
    hostOp (.load image entry) σ =
      if σ.stepped = true ∧ σ.core.halted = false then none
      else some (⟨σ.core.load image entry, false⟩, .loaded))

/-- While a run is in progress the host has no move that writes the core's state: a STEP takes the core's own step,
and every other allowed move leaves all as it is (00_scope.md R18). -/
def Obligations.HostWritesNothingDuringARun : Prop :=
  ∀ (σ σ' : Session) (op : HostOp) (reply : HostReply), σ.running = true →
    hostOp op σ = some (σ', reply) →
    (op = .step ∧ step σ.core = .next σ'.core ∧ σ'.stepped = true) ∨
    ((op = .readHalted ∨ op = .readPc ∨ ∃ a, op = .peek a) ∧ σ' = σ)

/-- The host's operations do what the interface table says (00_scope.md R17): STEP is one primitive step and yields
its OUT event, and the reads answer without side effect (the spec's decision D15, log entry 17). -/
def Obligations.HostOperationsFollowTheInterfaceTable : Prop :=
  ∀ σ : Session,
    (∀ (image : Image) (entry : Addr), σ.running = false →
      hostOp (.load image entry) σ = some (⟨σ.core.load image entry, false⟩, .loaded)) ∧
    (∀ (image : Image) (entry : Addr), σ.running = true → hostOp (.load image entry) σ = none) ∧
    (σ.core.halted = false → ∃ (t : State) (events : List OutEvent), step σ.core = .next t ∧
      hostOp .step σ = some (⟨t, true⟩, .stepped events) ∧
      t.out = σ.core.out ++ events ∧ events.length ≤ 1) ∧
    hostOp .readHalted σ = some (σ, .halted σ.core.halted) ∧
    (∀ a : Addr, hostOp (.peek a) σ = some (σ, .word (σ.core.readWord a))) ∧
    hostOp .readPc σ = some (σ, .address σ.core.pc)

/-- A step reads five cells and writes one: two running states that agree on pc, the ports and those five cells step
alike, and neither changes any other cell (10_state.md R32, 20_memory.md R65). -/
def Obligations.StepReadsFiveCellsAndWritesOne : Prop :=
  ∀ s s' : State, s.halted = false → s'.halted = false → s'.pc = s.pc → s'.config = s.config →
    s'.readWord s.pc = s.readWord s.pc →
    s'.readWord (aadd s.pc 1) = s.readWord (aadd s.pc 1) →
    s'.readWord (aadd s.pc 2) = s.readWord (aadd s.pc 2) →
    s'.readWord (fetchedA s) = s.readWord (fetchedA s) →
    s'.readWord (fetchedB s) = s.readWord (fetchedB s) →
    ∃ (t t' : State) (events : List OutEvent), step s = .next t ∧ step s' = .next t' ∧
      t'.pc = t.pc ∧ t'.halted = t.halted ∧
      t'.readWord (fetchedB s) = t.readWord (fetchedB s) ∧
      t.out = s.out ++ events ∧ t'.out = s'.out ++ events ∧
      ∀ x : Addr, x ≠ fetchedB s → t.readWord x = s.readWord x ∧ t'.readWord x = s'.readWord x

/-- The events already emitted never influence a run: with any other output history the same steps reach the same
memory, pc and run state and emit the same events (10_state.md R30, R38). -/
def Obligations.OutputHistoryNeverInfluencesARun : Prop :=
  ∀ (n : Nat) (s t : State) (history : List OutEvent), runSteps n s = .next t →
    ∃ events : List OutEvent, t.out = s.out ++ events ∧
      runSteps n { s with out := history } = .next { t with out := history ++ events }

/-! ### Invariants -/

/-- Every step keeps a state well formed: its memory in canonical form and its ports distinct. -/
def Obligations.EveryStepKeepsStatesWellFormed : Prop :=
  ∀ s t : State, WellFormedState s → step s = .next t → WellFormedState t

/-- The reset state is well formed. The port addresses, the entry and the image in it are the model's choices (log
entries 4, 6, 7). -/
def Obligations.ResetStateIsWellFormed : Prop :=
  WellFormedState State.reset

/-- The reset state is the LOAD of the empty image at 0: not halted, nothing emitted (10_state.md R43, R37), and, by
the model's own choices (log entries 6, 7), pc 0 and every cell 0. -/
def Obligations.ResetStateIsALoad : Prop :=
  State.reset = State.reset.load [] 0 ∧ State.reset.halted = false ∧ State.reset.out = [] ∧
  State.reset.pc = 0 ∧ ∀ a : Addr, State.reset.readWord a = 0

/-- Memories in canonical form that read alike are equal, so equal memories are equal data (20_memory.md R60). -/
def Obligations.EqualReadsMeanEqualMemory : Prop :=
  ∀ m m' : Memory, Memory.wf m → Memory.wf m' → (∀ a : Addr, Memory.read m a = Memory.read m' a) →
    m = m'

/-! ### The assembler's contracts -/

/-- The one triple that `clr`, `sub` and `slq` are each forced to emit does on the core what the mnemonic's contract says,
ports included, and alters no other cell (42_assembler_pseudo.md R184, R187, R192, in part the spec's derivations
and its decision D21). -/
def Obligations.ForcedTriplesMeetTheirContracts : Prop :=
  ∀ (p : Toolchain) (code : Code) (calls : CallState) (s : State) (m : Mnemonic) (i : Instr), p.wf = true →
    s.halted = false → forcedInstr s.pc m = some i → fetchInstr s = i →
    ∃ t : State, step s = .next t ∧ MeetsContract p code s.pc calls m s t

/-- The triple `(x, port, next)` is an expansion of `set` to an output port that holds 0: it meets the contract, which is
exactly one event with the operand's word, and leaves 0 in the port (42_assembler_pseudo.md R182, which the spec
derives). An expansion of three words is one choice of the open `SIZE(set)`. -/
def Obligations.OneSubtractionMeetsTheContractOfSetToAPort : Prop :=
  ∀ (p : Toolchain) (code : Code) (calls : CallState) (s : State) (d x : Addr), p.size .set = 3 →
    s.halted = false → d ≠ s.config.addrBrk → IsOutputPort s.config d → s.readWord d = 0 →
    fetchInstr s = .subleq x d (aadd s.pc 3) →
    ∃ t : State, step s = .next t ∧ MeetsContract p code s.pc calls (.set d x) s t ∧
      t.out = s.out ++ [⟨if d = s.config.addrIout then .dec else .char, s.readWord x⟩] ∧
      t.readWord d = 0 ∧ t.pc = following p s.pc (.set d x)

/-- A single call comes back: `jsr` and `cll` go to their label and leave the return address in their slot, and after
any code without a call or a `ret`, in whatever state, `ret` goes on at the instruction following the call; once a
second call has been made, `ret` has no contract (42_assembler_pseudo.md R195 to R197, decision D26; what the slots
and the argument's place hold is the model's choice, log entry 27). -/
def Obligations.SingleCallReturnsToTheFollowingInstruction : Prop :=
  ∀ (p : Toolchain) (t t' : Addr) (m : Mnemonic) (k : CallKind) (s s' : State) (body : Code), callKind m = some k →
    (∃ e : ContractEffect, contract p t .idle m s = some e ∧
      (m = .jsr e.next ∨ ∃ arg : Addr, m = .cll e.next arg ∧
        (p.cllArgument e.next ≠ p.cllReturn →
          (applyWrites e.writes s).readWord (p.cllArgument e.next) = s.readWord arg)) ∧
      addr ((applyWrites e.writes s).readWord (returnSlot s.config p k)) = following p t m) ∧
    ((∀ i ∈ body, i.2 ≠ .ret) →
      let calls := callsAfter p body (callAfter p t m .idle)
      ((∀ i ∈ body, callKind i.2 = none) →
        contract p t' calls .ret s' = some (transferEffect (aadd t (p.size (mnemonicName m)))) ∧
          callAfter p t' .ret calls = .idle) ∧
      ((∃ i ∈ body, callKind i.2 ≠ none) → contract p t' calls .ret s' = none))

/-- The program of example E9 (95_test_vectors.md): where the words of `jsr` or `cll`, of an `inc` of a variable, of `ret`
and of a `set` to IOUT meet their contracts, a single call comes back and the incremented value is printed once. A
variable is a cell that is no port, no scratch register and no word of the code (42_assembler_pseudo.md R180, R182,
R193, R195 to R197; log entries 27 and 28). -/
def Obligations.SingleCallPrintsTheIncrementedVariable : Prop :=
  ∀ (p : Toolchain) (code : Code) (t r : Addr) (m : Mnemonic) (d : Addr) (s₀ s₁ s₂ s₃ s₄ : State),
    callKind m ≠ none →
    ¬ IsPort s₀.config d → ¬ IsScratchCell s₀.config p d → ¬ IsCodeWord p code d →
    (t, m) ∈ code → (r, .ret) ∈ code →
    MeetsContract p code t .idle m s₀ s₁ →
    MeetsContract p code s₁.pc (callsAfter p [(t, m)] .idle) (.inc d) s₁ s₂ →
    MeetsContract p code r (callsAfter p [(t, m), (s₁.pc, .inc d)] .idle) .ret s₂ s₃ →
    s₃.pc = following p t m ∧ s₃.halted = false ∧ s₃.out = s₀.out ∧
    s₃.readWord d = wadd (s₀.readWord d) (word 1) ∧
    (MeetsContract p code s₃.pc .idle (.set s₃.config.addrIout d) s₃ s₄ →
      s₄.out = s₀.out ++ [⟨.dec, wadd (s₀.readWord d) (word 1)⟩] ∧
      s₄.pc = following p s₃.pc (.set s₃.config.addrIout d))
end

