-- ==== Sys2Proof/Laws/Arith.lean ====
section
/-!
SUPPORT. The word arithmetic agrees with the arithmetic of BitVec, the signed test in bits, and when addresses near
pc differ.
-/

namespace Sys2Proof.Machine

theorem word_uint (w : Word) : word (uint w : Int) = w := by
  simp [word, uint]

theorem uint_word (n : Int) : (uint (word n) : Int) = n % 65536 := by
  have := Int.emod_nonneg n (b := 65536) (by decide)
  simp [word, uint]; omega

theorem sint_word (n : Int) : sint (word n) = n.bmod 65536 := by
  simp [word, sint]

theorem wsub_eq_sub (x y : Word) : wsub x y = x - y := by
  apply BitVec.eq_of_toNat_eq
  simp only [wsub, word, uint, BitVec.toNat_sub, BitVec.toNat_ofInt]
  have := x.isLt; have := y.isLt
  omega

theorem wadd_eq_add (x y : Word) : wadd x y = x + y := by
  apply BitVec.eq_of_toNat_eq
  simp only [wadd, word, uint, BitVec.toNat_add, BitVec.toNat_ofInt]
  have := x.isLt; have := y.isLt
  omega

theorem wneg_eq_neg (x : Word) : wneg x = -x := by
  apply BitVec.eq_of_toNat_eq
  simp only [wneg, word, uint, BitVec.toNat_neg, BitVec.toNat_ofInt]
  have := x.isLt
  omega

theorem word_zero : word 0 = 0 := rfl

/-- The signed reading of a difference is the exact difference brought back into range. -/
theorem sint_wsub (x y : Word) : sint (wsub x y) = (sint x - sint y).bmod 65536 := by
  simp [wsub_eq_sub, sint, BitVec.toInt_sub]

theorem sint_wneg (x : Word) : sint (wneg x) = (-sint x).bmod 65536 := by
  simp [wneg_eq_neg, sint, BitVec.toInt_neg]

/-- The difference may be taken on signed readings as well. -/
theorem word_sint_sub (x y : Word) : word (sint x - sint y) = wsub x y := by
  apply BitVec.eq_of_toInt_eq
  show sint _ = sint _
  rw [sint_word, sint_wsub]

theorem sint_lt (x : Word) : sint x < 32768 := by
  have := BitVec.toInt_lt (x := x); simpa [sint] using this

theorem le_sint (x : Word) : -32768 ≤ sint x := by
  have := BitVec.le_toInt (x := x); simpa [sint] using this

theorem aadd_eq_add (a : Addr) (k : Nat) : aadd a k = a + BitVec.ofNat 16 k := by
  apply BitVec.eq_of_toNat_eq
  simp [aadd, memWords]

theorem toNat_aadd (a : Addr) (k : Nat) : (aadd a k).toNat = (a.toNat + k) % 65536 := by
  simp [aadd, memWords]

theorem aadd_aadd (a : Addr) (j k : Nat) : aadd (aadd a j) k = aadd a (j + k) := by
  apply BitVec.eq_of_toNat_eq
  simp only [toNat_aadd]; omega

theorem aadd_zero (a : Addr) : aadd a 0 = a := by
  apply BitVec.eq_of_toNat_eq
  rw [toNat_aadd]; have := a.isLt; omega

/-- Two small distances from one address name different cells. -/
theorem aadd_ne (a : Addr) {j k : Nat} (hj : j < 65536) (hk : k < 65536) (h : j ≠ k) :
    aadd a j ≠ aadd a k := by
  intro e
  have := congrArg BitVec.toNat e
  simp only [toNat_aadd] at this
  have := a.isLt
  omega

theorem jumpTaken_iff (r : Word) : jumpTaken r = true ↔ sint r ≤ 0 := by
  simp [jumpTaken]

theorem nextPc_of_le {pc c : Addr} {r : Word} (h : sint r ≤ 0) : nextPc pc c r = c := by
  simp [nextPc, jumpTaken, h]

theorem nextPc_of_pos {pc c : Addr} {r : Word} (h : 0 < sint r) : nextPc pc c r = aadd pc 3 := by
  simp [nextPc, jumpTaken, Int.not_le.mpr h]

theorem nextPc_eq (pc c : Addr) (r : Word) : nextPc pc c r = if sint r ≤ 0 then c else aadd pc 3 := by
  simp [nextPc, jumpTaken]

theorem addr_wordOfAddr (a : Addr) : addr (wordOfAddr a) = a := rfl

theorem addr_relativeTarget_zero (t : Addr) : addr (relativeTarget t 0) = aadd t 3 := rfl

end Sys2Proof.Machine
end

