-- ==== Sys2Proof/Laws/Memory.lean ====
section
/-!
SUPPORT. The laws of memory: a read after a write, and the canonical form, which every memory operation keeps.
-/

namespace Sys2Proof.Machine

theorem Memory.mem_erase {m : Memory} {k : Nat} {c : Nat × Word} :
    c ∈ Memory.erase m k ↔ c ∈ m ∧ c.1 ≠ k := by
  induction m with
  | nil => simp [Memory.erase]
  | cons d m ih =>
    obtain ⟨k', v⟩ := d
    simp only [Memory.erase]
    split
    · rename_i h
      subst h
      rw [ih, List.mem_cons]
      constructor
      · rintro ⟨h1, h2⟩; exact ⟨.inr h1, h2⟩
      · rintro ⟨rfl | h1, h2⟩
        · exact absurd rfl h2
        · exact ⟨h1, h2⟩
    · rename_i h
      rw [List.mem_cons, List.mem_cons, ih]
      constructor
      · rintro (rfl | ⟨h1, h2⟩)
        · exact ⟨.inl rfl, h⟩
        · exact ⟨.inr h1, h2⟩
      · rintro ⟨rfl | h1, h2⟩
        · exact .inl rfl
        · exact .inr ⟨h1, h2⟩

theorem Memory.mem_insert {m : Memory} {k : Nat} {v : Word} {c : Nat × Word} :
    c ∈ Memory.insert m k v ↔ c = (k, v) ∨ c ∈ m := by
  induction m with
  | nil => simp [Memory.insert]
  | cons d m ih =>
    obtain ⟨k', v'⟩ := d
    simp only [Memory.insert]
    split
    · simp
    · rw [List.mem_cons, ih, List.mem_cons]; tauto

theorem Memory.lookup_erase (m : Memory) (k j : Nat) :
    Memory.lookup (Memory.erase m k) j = if j = k then Memory.unlisted else Memory.lookup m j := by
  induction m with
  | nil => simp [Memory.erase, Memory.lookup]
  | cons d m ih =>
    obtain ⟨k', v⟩ := d
    simp only [Memory.erase]
    split
    · rename_i h
      rw [ih]
      split
      · rfl
      · rename_i hj
        simp only [Memory.lookup]
        rw [if_neg (by omega)]
    · rename_i h
      simp only [Memory.lookup]
      split
      · rename_i hj
        rw [if_neg (by omega)]
      · exact ih

theorem Memory.lookup_insert {m : Memory} {k : Nat} (v : Word) (j : Nat) (hm : ∀ c ∈ m, c.1 ≠ k) :
    Memory.lookup (Memory.insert m k v) j = if j = k then v else Memory.lookup m j := by
  induction m with
  | nil => simp [Memory.insert, Memory.lookup, eq_comm]
  | cons d m ih =>
    obtain ⟨k', v'⟩ := d
    have hk : k' ≠ k := hm (k', v') (by simp)
    have ih := ih (fun c hc => hm c (List.mem_cons_of_mem _ hc))
    simp only [Memory.insert]
    split
    · simp [Memory.lookup, eq_comm]
    · simp only [Memory.lookup, ih]
      split
      · rename_i h1; rw [if_neg (by omega)]
      · rfl

theorem Memory.read_write (m : Memory) (a : Addr) (v : Word) (x : Addr) :
    Memory.read (Memory.write m a v) x = if x = a then v else Memory.read m x := by
  have key : Memory.lookup (Memory.write m a v) x.toNat =
      if x.toNat = a.toNat then v else Memory.lookup m x.toNat := by
    unfold Memory.write
    split
    · rename_i hv; rw [Memory.lookup_erase, hv]
    · rw [Memory.lookup_insert _ _ (fun c hc => (Memory.mem_erase.mp hc).2), Memory.lookup_erase]
      split <;> rfl
  rw [Memory.read, key]
  simp only [BitVec.toNat_inj]
  rfl

theorem Memory.read_write_same (m : Memory) (a : Addr) (v : Word) :
    Memory.read (Memory.write m a v) a = v := by
  simp [Memory.read_write]

theorem Memory.read_write_ne (m : Memory) {a x : Addr} (v : Word) (h : x ≠ a) :
    Memory.read (Memory.write m a v) x = Memory.read m x := by
  simp [Memory.read_write, h]

/-! ### The canonical form -/

theorem Memory.nil_wf : Memory.wf [] := ⟨List.Pairwise.nil, fun x hx => absurd hx (by simp)⟩

theorem Memory.erase_wf {m : Memory} (h : Memory.wf m) (k : Nat) : Memory.wf (Memory.erase m k) := by
  refine ⟨?_, fun x hx => h.2 x (Memory.mem_erase.mp hx).1⟩
  obtain ⟨hp, -⟩ := h
  induction m with
  | nil => simp [Memory.erase]
  | cons d m ih =>
    obtain ⟨k', v⟩ := d
    rw [List.pairwise_cons] at hp
    simp only [Memory.erase]
    split
    · exact ih hp.2
    · rw [List.pairwise_cons]
      exact ⟨fun c hc => hp.1 c (Memory.mem_erase.mp hc).1, ih hp.2⟩

theorem Memory.insert_wf {m : Memory} (h : Memory.wf m) {k : Nat} {v : Word} (hk : k < memWords)
    (hv : v ≠ Memory.unlisted) (hm : ∀ c ∈ m, c.1 ≠ k) : Memory.wf (Memory.insert m k v) := by
  refine ⟨?_, fun x hx => ?_⟩
  · obtain ⟨hp, -⟩ := h
    induction m with
    | nil => simp [Memory.insert]
    | cons d m ih =>
      obtain ⟨k', v'⟩ := d
      have hk' : k' ≠ k := hm (k', v') (by simp)
      simp only [Memory.insert]
      split
      · rename_i hlt
        rw [List.pairwise_cons]
        refine ⟨fun c hc => ?_, hp⟩
        rw [List.pairwise_cons] at hp
        rcases List.mem_cons.mp hc with rfl | hc
        · exact hlt
        · exact Nat.lt_trans hlt (hp.1 c hc)
      · rename_i hlt
        rw [List.pairwise_cons] at hp ⊢
        refine ⟨fun c hc => ?_, ih (fun c hc => hm c (List.mem_cons_of_mem _ hc)) hp.2⟩
        rcases Memory.mem_insert.mp hc with rfl | hc
        · show k' < k; omega
        · exact hp.1 c hc
  · rcases Memory.mem_insert.mp hx with rfl | hx
    · exact ⟨hk, hv⟩
    · exact h.2 x hx

/-- A write keeps the canonical form. -/
theorem Memory.write_wf {m : Memory} (h : Memory.wf m) (a : Addr) (v : Word) :
    Memory.wf (Memory.write m a v) := by
  unfold Memory.write
  split
  · exact Memory.erase_wf h _
  · rename_i hv
    exact Memory.insert_wf (Memory.erase_wf h _) a.isLt hv (fun c hc => (Memory.mem_erase.mp hc).2)

/-- A loaded image is in canonical form. -/
theorem Image.toMemory_wf (image : Image) : Memory.wf (Image.toMemory image) := by
  induction image with
  | nil => exact Memory.nil_wf
  | cons c rest ih => exact Memory.write_wf ih _ _

theorem State.reset_mem_wf : Memory.wf State.reset.mem := Memory.nil_wf

/-- Below every listed address, memory reads as what an unlisted address reads as. -/
theorem Memory.lookup_of_lt {m : Memory} {k : Nat} (h : ∀ c ∈ m, k < c.1) :
    Memory.lookup m k = Memory.unlisted := by
  induction m with
  | nil => rfl
  | cons d m ih =>
    have hd := h d (by simp)
    simp only [Memory.lookup]
    rw [if_neg (by omega)]
    exact ih (fun c hc => h c (List.mem_cons_of_mem _ hc))

/-! ### The state's reads -/

theorem State.readWord_writeWord (s : State) (a : Addr) (v : Word) (x : Addr) :
    (s.writeWord a v).readWord x = if x = a then v else s.readWord x :=
  Memory.read_write s.mem a v x

@[simp] theorem State.readWord_setPc (s : State) (t x : Addr) :
    (s.setPc t).readWord x = s.readWord x := rfl

@[simp] theorem State.readWord_emit (s : State) (k : OutKind) (v : Word) (x : Addr) :
    (s.emit k v).readWord x = s.readWord x := rfl

@[simp] theorem State.readWord_halt (s : State) (x : Addr) : s.halt.readWord x = s.readWord x := rfl

end Sys2Proof.Machine
end

