-- ==== Sys2Proof/Laws/PerInstr.lean ====
section
/-!
SUPPORT. Laws stated per instruction, one lemma per constructor of Instr.
-/

namespace Sys2Proof.Laws

/-- Every instruction is encoded in exactly three words (spec 30_encoding.md R92). -/
def ThreeWords.Statement (i : Instr) : Prop := (encode i).length = 3

theorem ThreeWords.subleq (a b c : Addr) : ThreeWords.Statement (.subleq a b c) := rfl

end Sys2Proof.Laws
end

