-- ==== Sys2Proof/Laws/State.lean ====
section
/-!
SUPPORT. What each named state update does to each field: one lemma per field per update, true by rfl.
-/

namespace Sys2Proof.Machine

section Updates

variable (s : State) (a target : Addr) (v : Word) (k : OutKind) (image : Image) (entry : Addr)

@[simp] theorem State.writeWord_mem : (s.writeWord a v).mem = Memory.write s.mem a v := rfl
@[simp] theorem State.writeWord_pc : (s.writeWord a v).pc = s.pc := rfl
@[simp] theorem State.writeWord_halted : (s.writeWord a v).halted = s.halted := rfl
@[simp] theorem State.writeWord_out : (s.writeWord a v).out = s.out := rfl
@[simp] theorem State.writeWord_config : (s.writeWord a v).config = s.config := rfl

@[simp] theorem State.setPc_mem : (s.setPc target).mem = s.mem := rfl
@[simp] theorem State.setPc_pc : (s.setPc target).pc = target := rfl
@[simp] theorem State.setPc_halted : (s.setPc target).halted = s.halted := rfl
@[simp] theorem State.setPc_out : (s.setPc target).out = s.out := rfl
@[simp] theorem State.setPc_config : (s.setPc target).config = s.config := rfl

@[simp] theorem State.emit_mem : (s.emit k v).mem = s.mem := rfl
@[simp] theorem State.emit_pc : (s.emit k v).pc = s.pc := rfl
@[simp] theorem State.emit_halted : (s.emit k v).halted = s.halted := rfl
@[simp] theorem State.emit_out : (s.emit k v).out = s.out ++ [⟨k, v⟩] := rfl
@[simp] theorem State.emit_config : (s.emit k v).config = s.config := rfl

@[simp] theorem State.halt_mem : s.halt.mem = s.mem := rfl
@[simp] theorem State.halt_pc : s.halt.pc = s.pc := rfl
@[simp] theorem State.halt_halted : s.halt.halted = true := rfl
@[simp] theorem State.halt_out : s.halt.out = s.out := rfl
@[simp] theorem State.halt_config : s.halt.config = s.config := rfl

@[simp] theorem State.load_mem : (s.load image entry).mem = Image.toMemory image := rfl
@[simp] theorem State.load_pc : (s.load image entry).pc = entry := rfl
@[simp] theorem State.load_halted : (s.load image entry).halted = false := rfl
@[simp] theorem State.load_out : (s.load image entry).out = [] := rfl
@[simp] theorem State.load_config : (s.load image entry).config = s.config := rfl

end Updates

/-- Two states are equal when each field is. -/
theorem State.eq_of_fields {s t : State} (hm : s.mem = t.mem) (hp : s.pc = t.pc)
    (hh : s.halted = t.halted) (ho : s.out = t.out) (hc : s.config = t.config) : s = t := by
  cases s; cases t; simp_all

end Sys2Proof.Machine
end

