-- ==== Sys2Proof/Laws/Subleq.lean ====
section
/-!
SUPPORT. What the port dispatch and SUBLEQ do to each part of the state; later proofs cite these and do not unfold.
-/

namespace Sys2Proof.Machine

/-! ### The port dispatch -/

theorem portDispatch_pc (b : Addr) (s : State) : (portDispatch b s).pc = s.pc := by
  unfold portDispatch; split <;> [rfl; (split <;> [rfl; (split <;> rfl)])]

theorem portDispatch_config (b : Addr) (s : State) : (portDispatch b s).config = s.config := by
  unfold portDispatch; split <;> [rfl; (split <;> [rfl; (split <;> rfl)])]

theorem portDispatch_halted (b : Addr) (s : State) :
    (portDispatch b s).halted = (s.halted || decide (b = s.config.addrBrk)) := by
  unfold portDispatch
  split
  · simp_all
  · split
    · simp_all
    · split <;> simp_all

theorem portDispatch_out (b : Addr) (s : State) :
    (portDispatch b s).out = s.out ++ portEvents s.config b (s.readWord b) := by
  unfold portDispatch portEvents recoveredValue
  split
  · simp
  · split
    · simp
    · split <;> simp

theorem portDispatch_readWord (b : Addr) (s : State) (x : Addr) :
    (portDispatch b s).readWord x =
      if x = b then finalCell s.config b (s.readWord b) else s.readWord x := by
  unfold portDispatch finalCell
  split
  · rename_i h
    simp only [State.readWord_halt, h, ne_eq, not_true_eq_false, false_and, if_false]
    split
    · rename_i hx; rw [hx]
    · rfl
  · rename_i h1
    split
    · rename_i h2
      simp only [State.readWord_writeWord, State.readWord_emit, word_zero]
      split
      · rw [if_pos ⟨h1, .inl h2⟩]
      · rfl
    · rename_i h2
      split
      · rename_i h3
        simp only [State.readWord_writeWord, State.readWord_emit, word_zero]
        split
        · rw [if_pos ⟨h1, .inr h3⟩]
        · rfl
      · rename_i h3
        split
        · rename_i hx; rw [if_neg (by tauto), hx]
        · rfl

theorem portDispatch_mem (b : Addr) (s : State) :
    (portDispatch b s).mem =
      if b ≠ s.config.addrBrk ∧ (b = s.config.addrIout ∨ b = s.config.addrCout) then
        Memory.write s.mem b 0
      else s.mem := by
  unfold portDispatch
  split
  · rename_i h; rw [if_neg (fun hb => hb.1 h)]; rfl
  · rename_i h1
    split
    · rename_i h2; rw [if_pos ⟨h1, .inl h2⟩]; rfl
    · rename_i h2
      split
      · rename_i h3; rw [if_pos ⟨h1, .inr h3⟩]; rfl
      · rename_i h3; rw [if_neg (by tauto)]

theorem portDispatch_mem_wf (b : Addr) {s : State} (h : Memory.wf s.mem) :
    Memory.wf (portDispatch b s).mem := by
  rw [portDispatch_mem]
  split
  · exact Memory.write_wf h b 0
  · exact h

/-! ### SUBLEQ -/

/-- The result of SUBLEQ on a state. -/
def subleqResult (a b : Addr) (s : State) : Word := wsub (s.readWord b) (s.readWord a)

theorem exec_subleq (a b c : Addr) (s : State) : exec (.subleq a b c) s = .next (subleqState a b c s) := rfl

theorem subleqState_pc (a b c : Addr) (s : State) :
    (subleqState a b c s).pc = nextPc s.pc c (subleqResult a b s) := by
  simp only [subleqState, portDispatch_pc, State.setPc_pc]; rfl

theorem subleqState_config (a b c : Addr) (s : State) : (subleqState a b c s).config = s.config := by
  simp [subleqState, portDispatch_config]

theorem subleqState_halted (a b c : Addr) (s : State) :
    (subleqState a b c s).halted = (s.halted || decide (b = s.config.addrBrk)) := by
  simp only [subleqState, portDispatch_halted]; rfl

theorem subleqState_out (a b c : Addr) (s : State) :
    (subleqState a b c s).out = s.out ++ portEvents s.config b (subleqResult a b s) := by
  simp only [subleqState, portDispatch_out, State.setPc_out, State.writeWord_out, State.setPc_config,
    State.writeWord_config, State.readWord_setPc, State.readWord_writeWord, if_true]
  rfl

theorem subleqState_mem (a b c : Addr) (s : State) :
    (subleqState a b c s).mem =
      if b ≠ s.config.addrBrk ∧ (b = s.config.addrIout ∨ b = s.config.addrCout) then
        Memory.write (Memory.write s.mem b (subleqResult a b s)) b 0
      else Memory.write s.mem b (subleqResult a b s) := by
  simp only [subleqState, portDispatch_mem]; rfl

theorem subleqState_readWord (a b c : Addr) (s : State) (x : Addr) :
    (subleqState a b c s).readWord x =
      if x = b then finalCell s.config b (subleqResult a b s) else s.readWord x := by
  simp only [subleqState, portDispatch_readWord, State.setPc_config, State.writeWord_config,
    State.readWord_setPc, State.readWord_writeWord, if_true]
  split
  · rfl
  · rfl

theorem subleqState_readWord_ne (a c : Addr) (s : State) {b x : Addr} (h : x ≠ b) :
    (subleqState a b c s).readWord x = s.readWord x := by
  rw [subleqState_readWord, if_neg h]

theorem subleqState_mem_wf (a b c : Addr) {s : State} (h : Memory.wf s.mem) :
    Memory.wf (subleqState a b c s).mem :=
  portDispatch_mem_wf b (Memory.write_wf h _ _)

end Sys2Proof.Machine
end

