-- ==== Sys2Proof/Laws/Step.lean ====
section
/-!
SUPPORT. What one step can do, said once, and the inductions over runs, packaged once.
-/

namespace Sys2Proof.Machine

theorem fetchInstr_eq (s : State) : fetchInstr s = .subleq (fetchedA s) (fetchedB s) (fetchedC s) := rfl

/-- The state a running core steps to. -/
def steppedState (s : State) : State := subleqState (fetchedA s) (fetchedB s) (fetchedC s) s

theorem step_running {s : State} (h : s.halted = false) : step s = .next (steppedState s) := by
  simp [step, canStep, h, fetchInstr_eq, exec_subleq, steppedState]

theorem step_of_halted {s : State} (h : s.halted = true) : step s = .next s := by
  simp [step, canStep, h, stepHalted]

/-- Everything a step can do. -/
theorem step_cases {s t : State} (h : step s = .next t) :
    (s.halted = true ∧ t = s) ∨ (s.halted = false ∧ t = steppedState s) := by
  cases hs : s.halted with
  | true => rw [step_of_halted hs] at h; cases h; exact .inl ⟨rfl, rfl⟩
  | false => rw [step_running hs] at h; cases h; exact .inr ⟨rfl, rfl⟩

theorem step_next (s : State) : ∃ t, step s = .next t := by
  cases hs : s.halted with
  | true => exact ⟨s, step_of_halted hs⟩
  | false => exact ⟨_, step_running hs⟩

/-! ### Runs -/

@[simp] theorem runSteps_zero (s : State) : runSteps 0 s = .next s := rfl

theorem runSteps_succ {s t : State} (n : Nat) (h : step s = .next t) :
    runSteps (n + 1) s = runSteps n t := by
  simp [runSteps, h]

theorem runSteps_next (n : Nat) (s : State) : ∃ t, runSteps n s = .next t := by
  induction n generalizing s with
  | zero => exact ⟨s, rfl⟩
  | succ n ih =>
    obtain ⟨t, ht⟩ := step_next s
    rw [runSteps_succ n ht]; exact ih t

/-- The last step of a run, split off. -/
theorem runSteps_snoc (n : Nat) (s t : State) :
    runSteps (n + 1) s = .next t ↔ ∃ u, runSteps n s = .next u ∧ step u = .next t := by
  induction n generalizing s with
  | zero =>
    obtain ⟨u, hu⟩ := step_next s
    rw [runSteps_succ 0 hu]
    simp [hu]
  | succ n ih =>
    obtain ⟨u, hu⟩ := step_next s
    rw [runSteps_succ (n + 1) hu, ih, runSteps_succ n hu]

theorem runSteps_add (m n : Nat) {s u : State} (h : runSteps m s = .next u) :
    runSteps (m + n) s = runSteps n u := by
  induction m generalizing s with
  | zero => cases h; simp
  | succ m ih =>
    obtain ⟨t, ht⟩ := step_next s
    rw [runSteps_succ m ht] at h
    rw [Nat.succ_add, runSteps_succ (m + n) ht, ih h]

/-- What holds at the start of a run and is kept by every step holds at its end. -/
theorem runSteps_induction {P : State → Prop} (hstep : ∀ s t, P s → step s = .next t → P t) :
    ∀ n s t, P s → runSteps n s = .next t → P t := by
  intro n
  induction n with
  | zero => intro s t hs h; cases h; exact hs
  | succ n ih =>
    intro s t hs h
    obtain ⟨u, hu, ht⟩ := (runSteps_snoc n s t).mp h
    exact hstep u t (ih s u hs hu) ht

/-- No run changes the port addresses. -/
theorem runSteps_config (n : Nat) (s t : State) (h : runSteps n s = .next t) : t.config = s.config := by
  refine runSteps_induction (P := fun u => u.config = s.config) ?_ n s t rfl h
  intro a b ha hb
  rcases step_cases hb with ⟨_, rfl⟩ | ⟨_, rfl⟩
  · exact ha
  · rw [steppedState, subleqState_config, ha]

/-- A well-formed configuration has three different port addresses. -/
theorem Config.distinct_of_wf {c : Config} (h : c.wf = true) :
    c.addrBrk ≠ c.addrIout ∧ c.addrBrk ≠ c.addrCout ∧ c.addrIout ≠ c.addrCout := by
  simp [Config.wf] at h; tauto

/-- The host's own iteration of `step` is `runSteps`. -/
theorem core_run_eq (n : Nat) (s : State) : Host.Core.run Sys2Proof.core n s = runSteps n s := by
  induction n generalizing s with
  | zero => rfl
  | succ n ih =>
    obtain ⟨t, ht⟩ := step_next s
    have h : Sys2Proof.core.step s = .next t := ht
    rw [runSteps_succ n ht, ← ih t]
    simp only [Host.Core.run, h]

end Sys2Proof.Machine
end

