-- ==== Sys2Proof/Laws/Toolchain.lean ====
section
/-!
SUPPORT. Small lemmas about the assembler's contracts: what storing a contract's cells does, how the call state goes, which
cells a mnemonic leaves alone, and that a contract can be met.
-/

namespace Sys2Proof.Machine

@[simp] theorem applyWrites_nil (σ : State) : applyWrites [] σ = σ := rfl

@[simp] theorem applyWrites_cons (a : Addr) (v : Word) (rest : List (Addr × Word)) (σ : State) :
    applyWrites ((a, v) :: rest) σ = applyWrites rest (σ.writeWord a v) := rfl

theorem applyWrites_config (ws : List (Addr × Word)) (σ : State) : (applyWrites ws σ).config = σ.config := by
  induction ws generalizing σ with
  | nil => rfl
  | cons w ws ih => obtain ⟨a, v⟩ := w; rw [applyWrites_cons, ih]; rfl

/-- A cell that no write names keeps its word. -/
theorem applyWrites_readWord_of_not_mem {ws : List (Addr × Word)} {x : Addr} (σ : State)
    (h : x ∉ ws.map Prod.fst) : (applyWrites ws σ).readWord x = σ.readWord x := by
  induction ws generalizing σ with
  | nil => rfl
  | cons w ws ih =>
    obtain ⟨a, v⟩ := w
    simp only [List.map_cons, List.mem_cons, not_or] at h
    rw [applyWrites_cons, ih _ h.2, State.readWord_writeWord, if_neg h.1]

/-- SUBLEQ leaves memory reading as its destination's final word stored. -/
theorem subleqState_readWord_applyWrites (a b c : Addr) (s : State) (x : Addr) :
    (subleqState a b c s).readWord x =
      (applyWrites [(b, finalCell s.config b (subleqResult a b s))] s).readWord x := by
  rw [subleqState_readWord, applyWrites_cons, applyWrites_nil, State.readWord_writeWord]

/-! ### The call state -/

@[simp] theorem callsAfter_nil (p : Toolchain) (calls : CallState) : callsAfter p [] calls = calls := rfl

@[simp] theorem callsAfter_cons (p : Toolchain) (t : Addr) (m : Mnemonic) (rest : Code) (calls : CallState) :
    callsAfter p ((t, m) :: rest) calls = callsAfter p rest (callAfter p t m calls) := rfl

/-- A mnemonic that is neither a call nor `ret` leaves the call state alone. -/
theorem callAfter_of_not_linkage {m : Mnemonic} (p : Toolchain) (t : Addr) (calls : CallState) (h : ¬ IsLinkage m) :
    callAfter p t m calls = calls := by
  simp only [IsLinkage, not_or, not_not] at h
  cases calls <;> simp [callAfter, h.1, h.2]

theorem callsAfter_of_not_linkage {code : Code} (p : Toolchain) (calls : CallState)
    (h : ∀ i ∈ code, ¬ IsLinkage i.2) : callsAfter p code calls = calls := by
  induction code generalizing calls with
  | nil => rfl
  | cons i rest ih =>
    obtain ⟨t, m⟩ := i
    rw [callsAfter_cons, callAfter_of_not_linkage p t calls (h (t, m) (List.mem_cons_self ..)),
      ih _ fun j hj => h j (List.mem_cons_of_mem _ hj)]

/-! ### The cells a mnemonic leaves alone -/

/-- No mnemonic of the code may alter a cell that is neither a scratch register nor a word of the code. -/
theorem not_mayAlter {c : Config} {p : Toolchain} {code : Code} {t : Addr} {m : Mnemonic} {x : Addr}
    (hm : (t, m) ∈ code) (hs : ¬ IsScratchCell c p x) (hc : ¬ IsCodeWord p code x) : ¬ MayAlter c p code t m x := by
  have hw : ¬ IsWorkCell c p t m x := fun h => h.2.elim hs fun h => hc ⟨(t, m), hm, h⟩
  have hp : ¬ IsPatchPoint p code x := fun ⟨i, hi, _, h⟩ => hc ⟨i, hi, h⟩
  cases m <;> simp [MayAlter, hw, hp, hc]

/-! ### Contracts can be met -/

/-- The state in which a contract has been carried out and nothing else has happened. -/
def applyEffect (e : ContractEffect) (σ : State) : State :=
  { applyWrites e.writes σ with pc := e.next, halted := e.halts, out := σ.out ++ e.events }

/-- Carrying out a contract meets it, where its writes keep to the conventions. -/
theorem meetsContract_applyEffect {p : Toolchain} {code : Code} {t : Addr} {calls : CallState} {m : Mnemonic}
    {σ : State} {e : ContractEffect} (he : contract p t calls m σ = some e)
    (hw : ∀ x ∈ e.writes.map Prod.fst, x ∈ destinations m ∨ MayAlter σ.config p code t m x) :
    MeetsContract p code t calls m σ (applyEffect e σ) := by
  refine ⟨e, he, rfl, rfl, rfl, applyWrites_config .., fun x => ⟨fun _ => rfl, fun hd ha => ?_⟩⟩
  exact applyWrites_readWord_of_not_mem σ fun hx => (hw x hx).elim hd ha

/-- `cll` uses another template constant than `jsr` (42_assembler_pseudo.md R196). -/
theorem templateRegister_ne (p : Toolchain) : templateRegister p .cll ≠ templateRegister p .jsr := by
  simp only [templateRegister]; split <;> decide

end Sys2Proof.Machine
end

