-- ==== Sys2Proof/Tests/Slice0.lean ====
section
/-!
SUPPORT. The model's own tests: the well-formedness smoke tests, words decoded as the spec writes them out, the
spec's vectors (95_test_vectors.md, named in each docstring), and for each statement with hypotheses a concrete
state and operands that meet them.
-/

namespace Sys2Proof.Tests

open Sys2Proof Sys2Proof.Machine

/-! ### Helpers -/

/-- The state of the spec's test configuration with the given cells loaded and the given entry. -/
def testState (pc : Addr) (cells : Image) : State := State.reset.load cells pc

/-- The state a step leads to. -/
def after (s : State) : State :=
  match step s with
  | .next t => t
  | .fault _ => s
  | .refused _ => s

/-- The halted state after the BRK step of vector PV11. -/
def haltedState : State := after (testState 100 [(100, 10), (101, 0), (102, 200), (10, 5)])

/-! ### Well-formedness: each check refuses an ill-formed term -/

theorem test_wf_refuses_brk_iout : Config.wf ⟨7, 7, 9⟩ = false := by decide
theorem test_wf_refuses_brk_cout : Config.wf ⟨7, 8, 7⟩ = false := by decide
theorem test_wf_refuses_iout_cout : Config.wf ⟨7, 8, 8⟩ = false := by decide
theorem test_wf_accepts_test_configuration : Config.testConfiguration.wf = true := by decide

/-- Every instruction is well formed (30_encoding.md R96), so there is no ill-formed one to refuse. -/
theorem test_wf_accepts_zero_triple : (Instr.subleq 0 0 0).wf = true := by decide

/-- The canonical form refuses an address listed twice, a wrong order, an entry that reads as an unlisted address
does, and an address past the end. -/
theorem test_wf_refuses_memories :
    ¬ Memory.wf [(5, 1), (5, 2)] ∧ ¬ Memory.wf [(6, 1), (5, 2)] ∧ ¬ Memory.wf [(5, 0)] ∧
      ¬ Memory.wf [(65536, 1)] := by decide

/-! ### Decoding -/

/-- Word 0 is `A` = 0000000000001010, word 1 is `B` = 0000000000001011, word 2 is `C` = 0000000011001000
(30_encoding.md R90, vector V1). -/
theorem test_decode_subleq_v1 :
    decode [0b0000000000001010, 0b0000000000001011, 0b0000000011001000] = .ok (.subleq 10 11 200) [] := by
  decide

/-- Negative words name the top of memory (20_memory.md R63, vector V11). -/
theorem test_decode_subleq_v11 :
    decode [0xFFFF, 0xFFFE, 0xFFFD] = .ok (.subleq 65535 65534 65533) [] := by decide

/-- `T = A, B, C` with `A` in `T[47:32]` (30_encoding.md R91). -/
theorem test_decode_table_word :
    decodeTableWord 48 0b000000000000101000000000000010110000000011001000 = some (.subleq 10 11 200) := by
  decide

theorem test_encode_subleq : encode (.subleq 10 11 200) = [0x000A, 0x000B, 0x00C8] := by decide

/-- Fewer than three words are rejected by name (30_encoding.md R92). -/
theorem test_decode_rejects_truncated :
    decode [] = .rejected (.truncated 0) ∧ decode [1] = .rejected (.truncated 1) ∧
      decode [1, 2] = .rejected (.truncated 2) := by decide

/-! ### Arithmetic -/

/-- The 14 rows `(vb, va, r, taken)` of the table of 40_subleq.md R123. -/
theorem test_alu_table :
    ∀ row ∈ ([(10, 3, 7, false), (3, 10, -7, true), (5, 5, 0, true), (0, 0, 0, true), (1, 0, 1, false),
        (-5, -3, -2, true), (-3, -5, 2, false), (32767, -1, -32768, true), (-32768, 1, 32767, false),
        (0, -32768, -32768, true), (-32768, -32768, 0, true), (32767, -32768, -1, true),
        (-1, 32767, -32768, true), (-32768, 32767, 1, false)] : List (Int × Int × Int × Bool)),
      sint (aluResult (word row.1) (word row.2.1)) = row.2.2.1 ∧
      jumpTaken (aluResult (word row.1) (word row.2.1)) = row.2.2.2 := by decide

/-- R12: `sint` of 0x8000 and 0xFFFF, `word` of -1 and 65537. R14: address arithmetic wraps. -/
theorem test_interpretations :
    sint 0x8000 = -32768 ∧ sint 0xFFFF = -1 ∧ uint 0xFFFF = 65535 ∧ word (-1) = 0xFFFF ∧
      word 65537 = 1 ∧ aadd 65534 3 = 1 := by decide

/-! ### One step of SUBLEQ -/

/-- Vector V15: a step that overwrites its own `C` word jumps to the `C` it fetched. -/
theorem test_subleq_v15 :
    (after (testState 100 [(100, 10), (101, 102), (102, 50), (10, 60)])).pc = 50 ∧
      (after (testState 100 [(100, 10), (101, 102), (102, 50), (10, 60)])).readWord 102 = word (-10) := by
  decide

/-- Vector PV5: from a port cell that holds 3, the event is `x - 3`, and the cell is reset. -/
theorem test_subleq_pv5 :
    (after (testState 100 [(100, 10), (101, 1), (102, 103), (10, 5), (1, 3)])).out = [⟨.dec, 2⟩] ∧
      (after (testState 100 [(100, 10), (101, 1), (102, 103), (10, 5), (1, 3)])).readWord 1 = 0 := by
  decide

/-! ### The host's side -/

/-- R146, vectors PV3, PV7 and PV9: what the host shows. -/
theorem test_shown :
    OutEvent.shown ⟨.dec, 0x8000⟩ = .integer (-32768) ∧ OutEvent.shown ⟨.char, 0xFFFF⟩ = .character 0xFFFD ∧
      OutEvent.shown ⟨.char, 32767⟩ = .character 0x7FFF := by decide

/-- The target words of example E10 (42_assembler_pseudo.md R178). -/
theorem test_relative_target :
    relativeTarget 100 0 = 103 ∧ relativeTarget 100 2 = 109 ∧ relativeTarget 65533 0 = 0 := by decide

/-- A choice of the assembler's open parameters, for the tests only. -/
def testToolchain : Toolchain :=
  { regAddr := fun r => match r with
      | .S => 5
      | .P1 => 6
      | .A | .B | .R | .A1 | .A2 | .X | .Y | .F => 7
      | .BRK | .IOUT | .COUT | .N1 | .O | .J | .K => 8
    jValue := 3, kValue := 4, jsrUsesJ := true
    size := fun n => match n with
      | .set | .clr | .sub | .slq | .jmp | .blq | .inc | .dec => 3
      | .slt | .neg | .add | .beq | .bgq | .ret => 9
      | .jsr | .cll => 12
    cllReturn := 7
    cllArgument := fun l => aadd l 2 }

/-- The contract vectors T4, T11, T15, T16, T20, T22 (95_test_vectors.md): the cell and its new value. -/
theorem test_contract_values :
    let s := testState 100 [(10, word (-32768)), (11, 32767), (12, 20000), (13, word (-1))]
    let w := fun m => (contract testToolchain 100 .idle m s).map ContractEffect.writes
    w (.slt 10 11) = some [(10, 1)] ∧ w (.neg 10) = some [(10, word (-32768))] ∧
      w (.add 10 13) = some [(10, word 32767)] ∧ w (.add 12 12) = some [(12, word (-25536))] ∧
      w (.inc 11) = some [(11, word (-32768))] ∧ w (.dec 10) = some [(10, word 32767)] := by decide

/-- The table of E5 at -32768: `blq` transfers, `beq` and `bgq` do not. -/
theorem test_contract_transfers :
    let s := testState 100 [(10, word (-32768))]
    let next := fun m => (contract testToolchain 100 .idle m s).map ContractEffect.next
    next (.beq 10 50) = some 109 ∧ next (.blq 10 50) = some 50 ∧ next (.bgq 10 50) = some 109 := by decide

/-- E8 (R182): `set IOUT x` with `M[x] = 5` adds exactly one event `(DEC, 5)`, and the port ends at 0. -/
theorem test_contract_set_iout :
    contract testToolchain 100 .idle (.set 1 10) (testState 100 [(10, 5)]) =
      some { writes := [(1, 0)], events := [⟨.dec, 5⟩], halts := false, next := 103 } := by decide

/-- R195 to R197: `jsr` keeps the address after its own words in `S`; after an `inc` in the callee `ret` goes back there;
a nested call has no return (decision D26). -/
theorem test_contract_call_return :
    let ret := fun body => contract testToolchain 200 (callsAfter testToolchain body .idle) .ret (testState 200 [])
    contract testToolchain 100 .idle (.jsr 200) (testState 100 []) =
      some { writes := [(5, 112)], events := [], halts := false, next := 200 } ∧
    (ret [(100, .jsr 200), (200, .inc 10)]).map ContractEffect.next = some 112 ∧
    ret [(100, .jsr 200), (200, .cll 300 10)] = none ∧ ret [] = none := by decide

/-- R35: the control registers are the core's ports, the others are `REG_ADDR(name)`; `P1` is 1 in an image. -/
theorem test_register_cells :
    regCell Config.testConfiguration testToolchain .IOUT = 1 ∧
    regCell Config.testConfiguration testToolchain .S = 5 ∧
    regImageValue testToolchain .P1 = some 1 ∧ regImageValue testToolchain .K = some 4 ∧
    regImageValue testToolchain .A = none := by decide

theorem test_wf_refuses_toolchain :
    Toolchain.wf { testToolchain with size := fun _ => 6 } = false ∧ testToolchain.wf = true := by decide

/-! ### Witnesses: a state and operands that meet each statement's hypotheses -/

/-- Vector V14: at pc 65535 the triple is `M[65535], M[0], M[1]`. -/
theorem witness_StepRunsTheDecodedTriple :
    let s := testState 65535 [(65535, 10), (0, 11), (1, 200), (10, 3), (11, 10)]
    s.halted = false ∧
    decode [s.readWord s.pc, s.readWord (aadd s.pc 1), s.readWord (aadd s.pc 2)] =
      .ok (.subleq 10 11 200) [] ∧ (Instr.subleq 10 11 200).wf = true := by decide

theorem witness_TableWordsAndInstructionsAgree :
    2 ^ 48 - 1 < 2 ^ 48 ∧ decode [1, 2, 3, 4] = .ok (.subleq 1 2 3) [4] := by decide

theorem witness_StepHasTheWholeEffectOfTheRule :
    (testState 100 [(100, 10), (101, 11), (102, 200)]).halted = false := by decide

/-- Vector V19, and the operations a halted core's host may use. -/
theorem witness_HaltedCoreTakesNoStep :
    haltedState.halted = true ∧
    hostOp .step ⟨haltedState, true⟩ = some (⟨haltedState, true⟩, .stepped []) ∧
    (hostOp (.load [] 3) ⟨haltedState, true⟩).isSome = true := by decide

theorem witness_JumpFollowsTheNewResult_taken :
    let s := testState 100 [(10, 5), (11, 5)]
    sint (wsub (s.readWord 11) (s.readWord 10)) ≤ 0 := by decide

theorem witness_JumpFollowsTheNewResult_not_taken :
    let s := testState 65535 [(10, 0), (11, 1)]
    0 < sint (wsub (s.readWord 11) (s.readWord 10)) := by decide

/-- The clauses' three kinds of destination: an ordinary cell, BRK, an output port. -/
theorem witness_SubleqFrame :
    let s := testState 100 []
    (∃ t, exec (.subleq 10 11 200) s = .next t) ∧
    (11 : Addr) ≠ s.config.addrBrk ∧ ¬ IsOutputPort s.config 11 ∧ (12 : Addr) ≠ 11 ∧
    (0 : Addr) = s.config.addrBrk := ⟨⟨_, rfl⟩, by decide⟩

/-- The exact difference at each end of the range, and one past each end (vectors V4, V5, V8). -/
theorem witness_OverflowWrapsAndDecidesTheJump :
    let d := fun (vb va : Int) => sint (word vb) - sint (word va)
    d (-1) 32767 = -32768 ∧ d 32767 0 = 32767 ∧ d 0 (-32768) = 32768 ∧ d (-32768) 1 = -32769 ∧
    (testState 100 [(11, word 32767), (10, word (-1))]).readWord 11 = word 32767 ∧
    (testState 100 [(11, word 32767), (10, word (-1))]).readWord 10 = word (-1) ∧
    (testState 100 [(11, word (-32768)), (10, word 1)]).readWord 11 = word (-32768) ∧
    (testState 100 [(11, word (-32768)), (10, word 1)]).readWord 10 = word 1 ∧
    ¬ IsOutputPort Config.testConfiguration 11 := by decide

/-- Vectors V13 and V14. -/
theorem witness_TripleAndFallThroughWrapAtTheTop :
    let s := testState 65534 [(65534, 10), (65535, 11), (0, 0), (10, 3), (11, 10)]
    let s' := testState 65535 [(65535, 10), (0, 11), (1, 200), (10, 3), (11, 10)]
    s.halted = false ∧ s.pc = 65534 ∧ 0 < sint (wsub (s.readWord 11) (s.readWord 10)) ∧
    s'.halted = false ∧ s'.pc = 65535 ∧ 0 < sint (wsub (s'.readWord 11) (s'.readWord 10)) := by decide

/-- `B` names each of the triple's own words, and `C` the triple itself (vectors V15, V16 with `C = pc`). -/
theorem witness_StepUsesTheWordsItFetched :
    let s0 := testState 100 [(100, 10), (101, 100), (102, 100), (10, 10)]
    let s1 := testState 100 [(100, 10), (101, 101), (102, 100), (10, 102)]
    let s2 := testState 100 [(100, 10), (101, 102), (102, 100), (10, 101)]
    (s0.halted = false ∧ fetchedB s0 = s0.pc ∧ (after s0).pc = s0.pc) ∧
    (s1.halted = false ∧ fetchedB s1 = aadd s1.pc 1 ∧ (after s1).pc = s1.pc) ∧
    (s2.halted = false ∧ fetchedB s2 = aadd s2.pc 2 ∧ (after s2).pc = s2.pc) := by decide

/-- Vector V18 patches word 0 of the next triple, program P3 its word 1, and the third its word 2. -/
theorem witness_PatchedWordIsFetchedByTheNextStep :
    let s0 := testState 100 [(100, 10), (101, 103), (102, 103), (10, word (-1)), (103, 20)]
    let s1 := testState 16 [(16, 13), (17, 20), (18, 19), (13, word (-1)), (19, 14), (20, 1), (21, 22)]
    let s2 := testState 16 [(16, 13), (17, 21), (18, 19), (13, word (-1)), (19, 14), (20, 1), (21, 22)]
    (s0.halted = false ∧ (after s0).halted = false ∧ aadd (after s0).pc 0 = fetchedB s0) ∧
    (s1.halted = false ∧ (after s1).halted = false ∧ aadd (after s1).pc 1 = fetchedB s1) ∧
    (s2.halted = false ∧ (after s2).halted = false ∧ aadd (after s2).pc 2 = fetchedB s2) := by decide

theorem witness_PatchedWordIsFetchedByTheNextStep_step :
    let s := testState 100 [(100, 10), (101, 103), (102, 103), (10, word (-1)), (103, 20)]
    ∃ t, step s = .next t := step_next _

/-- The one-instruction loop `(b, b, 100)` at 100. -/
def loopState (b : Addr) : State := testState 100 [(100, wordOfAddr b), (101, wordOfAddr b), (102, 100)]

/-- The hypotheses on the one-instruction loop. -/
abbrev LoopHypotheses (s : State) : Prop :=
  s.halted = false ∧ fetchedA s = fetchedB s ∧ fetchedC s = s.pc ∧
  sint (wsub (s.readWord (fetchedB s)) (s.readWord (fetchedA s))) ≤ 0 ∧
  fetchedB s ≠ s.pc ∧ fetchedB s ≠ aadd s.pc 1 ∧ fetchedB s ≠ aadd s.pc 2 ∧
  fetchedB s ≠ s.config.addrBrk

/-- `C` is the fall-through address; `C` is the triple's own and the jump is taken; and the loop, on a plain cell, on
IOUT and on COUT. -/
theorem witness_SpecialTargetsAndTheOneInstructionLoop :
    let f := testState 100 [(100, 10), (101, 11), (102, 103)]
    (f.halted = false ∧ fetchedC f = aadd f.pc 3) ∧
    LoopHypotheses (loopState 11) ∧
    (LoopHypotheses (loopState 1) ∧ fetchedB (loopState 1) = (loopState 1).config.addrIout) ∧
    (LoopHypotheses (loopState 2) ∧ fetchedB (loopState 2) = (loopState 2).config.addrCout) := by decide

theorem witness_EveryCellCanBeGivenEveryValue :
    let s := testState 100 [(10, word (-3)), (11, word 4)]
    (10 : Addr) ≠ 11 ∧ s.readWord 10 = wsub (s.readWord 11) (word 7) := by decide

theorem witness_IoutEmitsTheRecoveredValueAndResets : (testState 100 [(10, 5)]).config.wf = true := by decide

/-- Vectors PV6 and PV7: a value shown as itself and one shown as the replacement character. -/
theorem witness_CoutEmitsTheRecoveredValueAndResets :
    let s := testState 100 [(10, 72), (11, word (-1))]
    s.config.wf = true ∧ 0 ≤ sint (wneg (wsub (s.readWord 2) (s.readWord 10))) ∧
    sint (wneg (wsub (s.readWord 2) (s.readWord 11))) < 0 := by decide

/-- Vector PV3 (the minimum word) and PV1. -/
theorem witness_RecoveredValueUndoesTheSubtraction :
    let s := testState 100 [(10, word (-32768)), (11, 5)]
    s.config.wf = true ∧ IsOutputPort s.config 1 ∧ IsOutputPort s.config 2 ∧ s.readWord 1 = 0 ∧
    wsub (s.readWord 1) (s.readWord 10) = word (-32768) ∧
    wsub (s.readWord 1) (s.readWord 11) ≠ word (-32768) := by decide

theorem witness_FirstOutputIsOffByTheCellsValue :
    let s := testState 100 [(10, 5), (1, 3)]
    s.config.wf = true ∧ IsOutputPort s.config 1 ∧ s.readWord 1 = 3 ∧ s.readWord 10 = 5 := by decide

/-- Vector PV12 (a port read through `A`), vector PV1, and a port that is not the destination. -/
theorem witness_OnlyTheDestinationTriggersAPort :
    let s := testState 100 [(100, 1), (101, 11), (102, 200), (1, 7), (11, 7)]
    let s' := testState 100 [(100, 10), (101, 1), (102, 103), (10, 5)]
    s.halted = false ∧ ¬ IsPort s.config (fetchedB s) ∧ IsPort s.config 1 ∧ (1 : Addr) ≠ fetchedB s ∧
    s'.halted = false ∧ fetchedB s' ≠ s'.config.addrBrk ∧ IsOutputPort s'.config (fetchedB s') := by decide

/-- Configurations whose ports coincide, and one whose ports do not. -/
theorem witness_AtMostOnePortInTheOrderBrkIoutCout :
    let c : Config := ⟨7, 7, 7⟩
    let d : Config := ⟨7, 8, 8⟩
    let e : Config := ⟨7, 8, 9⟩
    ((7 : Addr) = c.addrBrk ∧ IsOutputPort c 7) ∧
    ((8 : Addr) ≠ d.addrBrk ∧ (8 : Addr) = d.addrIout ∧ (8 : Addr) = d.addrCout) ∧
    ((9 : Addr) ≠ e.addrBrk ∧ (9 : Addr) ≠ e.addrIout ∧ (9 : Addr) = e.addrCout ∧ ¬ IsPort e 10) := by
  decide

theorem witness_EveryStepGoesOnUnlessBrk :
    let s := testState 100 [(100, 10), (101, 0), (102, 200)]
    s.halted = false ∧ fetchedB s = s.config.addrBrk := by decide

/-- The three kinds of step: no event, DEC, CHAR. -/
theorem witness_EachStepAppendsItsOneEvent :
    let s := fun b : Addr => testState 100 [(100, 10), (101, wordOfAddr b), (102, 103), (10, 5)]
    (s 11).config.wf = true ∧ (s 11).halted = false ∧ (after (s 11)).out = [] ∧
    (s 1).config.wf = true ∧ (s 1).halted = false ∧ (after (s 1)).out = [⟨.dec, 5⟩] ∧
    (s 2).config.wf = true ∧ (s 2).halted = false ∧ (after (s 2)).out = [⟨.char, 5⟩] := by decide

theorem witness_EachStepAppendsItsOneEvent_step :
    ∃ t, step (testState 100 [(100, 10), (101, 1), (102, 103)]) = .next t := step_next _

/-- A run of one step whose step is the BRK step. -/
theorem witness_RunEndsExactlyAtTheBrkStep :
    let s := testState 100 [(100, 10), (101, 0), (102, 200)]
    s.halted = false ∧ (∃ t, runSteps 1 s = .next t) ∧
    ∃ k u, k < 1 ∧ runSteps k s = .next u ∧ WritesNext u u.config.addrBrk :=
  ⟨rfl, runSteps_next 1 _, 0, _, by decide, rfl, by decide⟩

/-- A run of one step that does not write the cell 12, and one step that writes the cell 11 followed by one that does
not. -/
theorem witness_ReadsReturnTheMostRecentWrite :
    let s := testState 100 [(100, 10), (101, 11), (102, 103), (103, 10), (104, 12), (105, 106)]
    (∃ t, runSteps 1 s = .next t) ∧
    (∀ k u, k < 1 → runSteps k s = .next u → ¬ WritesNext u 12) ∧
    WritesNext s 11 ∧ (∃ v, step s = .next v) ∧
    (∀ k w, k < 1 → runSteps k (after s) = .next w → ¬ WritesNext w 11) := by
  refine ⟨runSteps_next 1 _, ?_, by decide, step_next _, ?_⟩
  · intro k u hk h
    obtain rfl : k = 0 := by omega
    cases h; decide
  · intro k w hk h
    obtain rfl : k = 0 := by omega
    cases h; decide

/-- A run of one step that writes the port whose image value is 3. -/
theorem witness_OutputPortCellsHoldZeroOrTheirImageValue :
    let s := State.reset
    let image : Image := [(100, 10), (101, 1), (102, 103), (10, 5), (1, 3)]
    s.config.wf = true ∧ IsOutputPort s.config 1 ∧ (∃ t, runSteps 1 (s.load image 100) = .next t) ∧
    ∃ k u, k < 1 ∧ runSteps k (s.load image 100) = .next u ∧ WritesNext u 1 :=
  ⟨by decide, by decide, runSteps_next 1 _, 0, _, by decide, rfl, by decide⟩

/-- A session in a run and one before its first step. -/
theorem witness_LoadSetsAllState :
    let s := testState 100 []
    Session.running ⟨s, true⟩ = true ∧ Session.running ⟨s, false⟩ = false ∧
    Session.running ⟨haltedState, true⟩ = false := by decide

theorem witness_HostWritesNothingDuringARun :
    let σ : Session := ⟨testState 100 [], true⟩
    σ.running = true ∧ (hostOp .step σ).isSome = true ∧ hostOp (.peek 5) σ = some (σ, .word 0) ∧
    hostOp .readPc σ = some (σ, .address 100) ∧ hostOp .readHalted σ = some (σ, .halted false) := by decide

theorem witness_HostOperationsFollowTheInterfaceTable :
    Session.running ⟨testState 100 [], true⟩ = true ∧ Session.running ⟨testState 100 [], false⟩ = false ∧
    (testState 100 []).halted = false := by decide

/-- Two states that differ in a cell the step does not read, and in their outputs. -/
theorem witness_StepReadsFiveCellsAndWritesOne :
    let s := testState 100 [(100, 10), (101, 11), (102, 200), (10, 3), (11, 10)]
    let s' := (s.writeWord 500 9).emit .dec 1
    s.halted = false ∧ s'.halted = false ∧ s'.pc = s.pc ∧ s'.config = s.config ∧
    s'.readWord s.pc = s.readWord s.pc ∧ s'.readWord (aadd s.pc 1) = s.readWord (aadd s.pc 1) ∧
    s'.readWord (aadd s.pc 2) = s.readWord (aadd s.pc 2) ∧
    s'.readWord (fetchedA s) = s.readWord (fetchedA s) ∧
    s'.readWord (fetchedB s) = s.readWord (fetchedB s) ∧ s' ≠ s := by decide

theorem witness_OutputHistoryNeverInfluencesARun :
    ∃ t, runSteps 2 (testState 100 [(100, 10), (101, 1), (102, 100), (10, 5)]) = .next t :=
  runSteps_next 2 _

theorem witness_EveryStepKeepsStatesWellFormed :
    WellFormedState (testState 100 [(100, 10), (101, 11), (102, 200)]) ∧
    ∃ t, step (testState 100 [(100, 10), (101, 11), (102, 200)]) = .next t :=
  ⟨by decide, step_next _⟩

theorem witness_EqualReadsMeanEqualMemory :
    let m : Memory := [(5, 1), (65535, 2)]
    Memory.wf m ∧ ∀ a : Addr, Memory.read m a = Memory.read m a := ⟨by decide, fun _ => rfl⟩

/-- `clr` on an ordinary cell; `sub` on an ordinary cell, on one cell twice, and on an output port; `slq`. -/
theorem witness_ForcedTriplesMeetTheirContracts :
    let triple := fun (a b : Addr) => testState 100 [(100, wordOfAddr a), (101, wordOfAddr b), (102, 103)]
    testToolchain.wf = true ∧ (triple 10 10).halted = false ∧ (triple 10 10).pc = 100 ∧
    forcedInstr 100 (.clr 10) = some (fetchInstr (triple 10 10)) ∧
    forcedInstr 100 (.sub 10 11) = some (fetchInstr (triple 11 10)) ∧
    forcedInstr 100 (.sub 10 10) = some (fetchInstr (triple 10 10)) ∧
    forcedInstr 100 (.sub 1 11) = some (fetchInstr (triple 11 1)) ∧
    IsOutputPort (triple 11 1).config 1 ∧
    forcedInstr 100 (.slq 11 10 103) = some (fetchInstr (triple 11 10)) := by decide

theorem witness_OneSubtractionMeetsTheContractOfSetToAPort :
    let s := fun d : Addr => testState 100 [(100, 10), (101, wordOfAddr d), (102, 103), (10, 5)]
    testToolchain.size .set = 3 ∧
    ((s 1).halted = false ∧ (1 : Addr) ≠ (s 1).config.addrBrk ∧ IsOutputPort (s 1).config 1 ∧
      (s 1).readWord 1 = 0 ∧ fetchInstr (s 1) = .subleq 10 1 (aadd (s 1).pc 3)) ∧
    ((s 2).halted = false ∧ (2 : Addr) ≠ (s 2).config.addrBrk ∧ IsOutputPort (s 2).config 2 ∧
      (s 2).readWord 2 = 0 ∧ fetchInstr (s 2) = .subleq 10 2 (aadd (s 2).pc 3)) := by decide

/-- A `jsr` and a `cll`, code without a call and code with a second one. -/
theorem witness_SingleCallReturnsToTheFollowingInstruction :
    let plain : Code := [(200, .inc 10), (203, .add 10 10)]
    let second : Code := [(200, .inc 10), (203, .jsr 300)]
    callKind (.jsr 200) = some .jsr ∧ callKind (.cll 200 10) = some .cll ∧
    testToolchain.cllArgument 200 ≠ testToolchain.cllReturn ∧
    (∀ i ∈ plain, i.2 ≠ .ret) ∧ (∀ i ∈ plain, callKind i.2 = none) ∧
    (∀ i ∈ second, i.2 ≠ .ret) ∧ (∃ i ∈ second, callKind i.2 ≠ none) := by decide

/-- The words of `inc` at 200 and of `ret` at 203, called by the mnemonic `m` at 100. -/
def callCode (m : Mnemonic) : Code := [(100, m), (200, .inc 10), (203, .ret)]

theorem cell10_is_a_variable {m : Mnemonic} (hm : testToolchain.size (mnemonicName m) = 12) :
    ¬ IsPort (testState 100 [(10, 41)]).config 10 ∧ ¬ IsScratchCell (testState 100 [(10, 41)]).config testToolchain 10 ∧
      ¬ IsCodeWord testToolchain (callCode m) 10 := by
  refine ⟨by decide, ?_, ?_⟩
  · rintro ⟨r, -, h⟩; revert h; cases r <;> decide
  · rintro ⟨i, hi, k, hk, h⟩
    simp only [callCode, List.mem_cons, List.not_mem_nil, or_false] at hi
    rcases hi with rfl | rfl | rfl
    · exact (by decide : ∀ k < 12, (10 : Addr) ≠ aadd 100 k) k (hm ▸ hk) h
    · exact (by decide : ∀ k < 3, (10 : Addr) ≠ aadd 200 k) k hk h
    · exact (by decide : ∀ k < 9, (10 : Addr) ≠ aadd 203 k) k hk h

/-! E9 with `v = 41`: the states after the call with effect `e`, after `inc`, after `ret` and after `set IOUT`. -/

def afterCall (e : ContractEffect) : State := applyEffect e (testState 100 [(10, 41)])
def afterInc (e : ContractEffect) : State := applyEffect ⟨[(10, 42)], [], false, 203⟩ (afterCall e)
def afterRet (e : ContractEffect) : State := applyEffect ⟨[], [], false, 112⟩ (afterInc e)
def afterSet (e : ContractEffect) : State := applyEffect ⟨[(1, 0)], [⟨.dec, 42⟩], false, 115⟩ (afterRet e)

/-- The states above are a run of E9 in which every contract is met. -/
def RunMeets (m : Mnemonic) (e : ContractEffect) : Prop :=
  let calls := callsAfter testToolchain [(100, m)] .idle
  let callsInc := callsAfter testToolchain [(100, m), ((afterCall e).pc, .inc 10)] .idle
  MeetsContract testToolchain (callCode m) 100 .idle m (testState 100 [(10, 41)]) (afterCall e) ∧
    MeetsContract testToolchain (callCode m) (afterCall e).pc calls (.inc 10) (afterCall e) (afterInc e) ∧
    MeetsContract testToolchain (callCode m) 203 callsInc .ret (afterInc e) (afterRet e) ∧
    MeetsContract testToolchain (callCode m) (afterRet e).pc .idle (.set (afterRet e).config.addrIout 10)
      (afterRet e) (afterSet e)

/-- E9 with `jsr`. -/
theorem witness_SingleCallPrintsTheIncrementedVariable :
    let m : Mnemonic := .jsr 200
    callKind m ≠ none ∧ testToolchain.size (mnemonicName m) = 12 ∧
    (100, m) ∈ callCode m ∧ (203, .ret) ∈ callCode m ∧ RunMeets m ⟨[(5, 112)], [], false, 200⟩ := by
  refine ⟨by decide, by decide, by decide, by decide, ?_, ?_, ?_, ?_⟩
  · exact meetsContract_applyEffect (by decide)
      (fun x hx => .inr (.inl ⟨List.not_mem_nil, .inl ⟨.S, rfl, List.mem_singleton.mp hx⟩⟩))
  · exact meetsContract_applyEffect (by decide) (by simp [destinations])
  · exact meetsContract_applyEffect (by decide) (by simp)
  · exact meetsContract_applyEffect (by decide) (fun x hx => .inl hx)

/-- E9 with `cll`, whose argument's place is the last word of the callee's `inc`. -/
theorem witness_SingleCallPrintsTheIncrementedVariable_cll :
    let m : Mnemonic := .cll 200 10
    callKind m ≠ none ∧ testToolchain.size (mnemonicName m) = 12 ∧
    (100, m) ∈ callCode m ∧ (203, .ret) ∈ callCode m ∧
    RunMeets m ⟨[(202, 41), (7, 112)], [], false, 200⟩ := by
  refine ⟨by decide, by decide, by decide, by decide, ?_, ?_, ?_, ?_⟩
  · refine meetsContract_applyEffect (by decide) (fun x hx => .inr ?_)
    simp only [List.map_cons, List.map_nil, List.mem_cons, List.not_mem_nil, or_false] at hx
    rcases hx with rfl | rfl
    · exact .inr (.inr ⟨rfl, (200, .inc 10), by decide, 2, by decide, by decide⟩)
    · exact .inl ⟨List.not_mem_nil, .inl ⟨.A, rfl, rfl⟩⟩
  · exact meetsContract_applyEffect (by decide) (by simp [destinations])
  · exact meetsContract_applyEffect (by decide) (by simp)
  · exact meetsContract_applyEffect (by decide) (fun x hx => .inl hx)

end Sys2Proof.Tests
end

/-! The host's operations: what a session in a run is, what a STEP request answers, and which moves a run leaves the
host (spec 00_scope.md R17, R18). -/

namespace Sys2Proof.Machine

theorem Session.running_iff (σ : Session) :
    σ.running = true ↔ σ.stepped = true ∧ σ.core.halted = false := by
  simp [Session.running]

theorem hostStep_of_step {σ : Session} {t : State} (h : step σ.core = .next t) :
    hostStep σ = some (⟨t, σ.stepped || canStep σ.core⟩, .stepped (newEvents σ.core t)) := by
  simp only [hostStep, h]

/-- Everything a STEP request can answer. -/
theorem hostStep_eq_some_iff (σ σ' : Session) (reply : HostReply) :
    hostStep σ = some (σ', reply) ↔
      step σ.core = .next σ'.core ∧ σ'.stepped = (σ.stepped || canStep σ.core) ∧
        reply = .stepped (newEvents σ.core σ'.core) := by
  obtain ⟨t, ht⟩ := step_next σ.core
  obtain ⟨core', stepped'⟩ := σ'
  rw [hostStep_of_step ht, ht]
  constructor
  · rintro ⟨⟩
    exact ⟨rfl, rfl, rfl⟩
  · rintro ⟨⟨⟩, rfl, rfl⟩
    rfl

theorem hostOp_load_of_running {σ : Session} (image : Image) (entry : Addr) (h : σ.running = true) :
    hostOp (.load image entry) σ = none := if_pos h

/-- Settles O31: by the host's operations. LOAD is not allowed in a run, STEP is the core's own step, and each of
the three reads answers the session it was given. -/
theorem hostWritesNothingDuringARun : Obligations.HostWritesNothingDuringARun := by
  intro σ σ' op reply hrun hop
  have unchanged_of_read {r : HostReply} (h : some (σ, r) = some (σ', reply)) : σ' = σ :=
    (congrArg Prod.fst (Option.some.inj h)).symm
  cases op with
  | load image entry => simp [hostOp_load_of_running image entry hrun] at hop
  | step =>
    obtain ⟨hstep, hstepped, -⟩ := (hostStep_eq_some_iff σ σ' reply).mp hop
    obtain ⟨hσ, -⟩ := σ.running_iff.mp hrun
    exact .inl ⟨rfl, hstep, by simp [hstepped, hσ]⟩
  | readHalted => exact .inr ⟨.inl rfl, unchanged_of_read hop⟩
  | peek a => exact .inr ⟨.inr (.inr ⟨a, rfl⟩), unchanged_of_read hop⟩
  | readPc => exact .inr ⟨.inr (.inl rfl), unchanged_of_read hop⟩

end Sys2Proof.Machine

/-! Memory: the triple a running step executes, and what a cell reads as along a run (spec 20_memory.md R64, R70). -/

namespace Sys2Proof.Machine

/-- A running step executes the triple in the three cells from pc on (40_subleq.md R110, R111). -/
theorem step_eq_exec_triple_at {s : State} {p : Addr} (h : s.halted = false) (hpc : s.pc = p) :
    step s = exec (.subleq (addr (s.readWord p)) (addr (s.readWord (aadd p 1))) (addr (s.readWord (aadd p 2)))) s := by
  rw [← hpc, step_running h, exec_subleq, steppedState, fetchedA, fetchedB, fetchedC]

/-- Settles O12: addresses past pc are taken with `aadd`, which wraps, for the fetch and for the fall-through. -/
theorem tripleAndFallThroughWrapAtTheTop : Obligations.TripleAndFallThroughWrapAtTheTop := by
  refine ⟨fun s hs => ?_, fun s a b c hr => ⟨_, exec_subleq a b c s, ?_⟩⟩
  · exact ⟨step_eq_exec_triple_at hs rfl, step_eq_exec_triple_at hs, step_eq_exec_triple_at hs⟩
  · have hfall : (subleqState a b c s).pc = aadd s.pc 3 := (subleqState_pc a b c s).trans (nextPc_of_pos hr)
    exact ⟨fun hpc => by rw [hfall, hpc]; rfl, fun hpc => by rw [hfall, hpc]; rfl⟩

/-- Every cell of a freshly loaded core reads as the image's word. -/
theorem State.readWord_load (s : State) (image : Image) (entry x : Addr) :
    (s.load image entry).readWord x = Image.word image x := by
  show Memory.read (Image.toMemory image) x = Image.word image x
  induction image with
  | nil => rfl
  | cons cell rest ih =>
    obtain ⟨k, v⟩ := cell
    simp only [Image.toMemory, Image.word, Memory.read_write, ih, eq_comm]

/-- A step leaves its destination holding the difference it computed, or what the dispatch makes of it. -/
theorem step_readWord_of_writesNext {s t : State} {x : Addr} (hw : WritesNext s x) (h : step s = .next t) :
    t.readWord x = finalCell s.config x (subleqResult (fetchedA s) x s) := by
  obtain ⟨hrun, rfl⟩ := hw
  obtain ⟨hhalt, -⟩ | ⟨-, rfl⟩ := step_cases h
  · simp [hrun] at hhalt
  · rw [steppedState, subleqState_readWord, if_pos rfl]

/-- A step keeps every cell that is not its destination. -/
theorem step_readWord_of_not_writesNext {s t : State} {x : Addr} (hw : ¬ WritesNext s x) (h : step s = .next t) :
    t.readWord x = s.readWord x := by
  obtain ⟨-, rfl⟩ | ⟨hrun, rfl⟩ := step_cases h
  · rfl
  · exact subleqState_readWord_ne _ _ _ fun hx => hw ⟨hrun, hx.symm⟩

/-- A run keeps every cell that none of its steps has as its destination. -/
theorem runSteps_readWord_of_not_writesNext {n : Nat} {s t : State} {x : Addr} (h : runSteps n s = .next t)
    (hw : ∀ (k : Nat) (u : State), k < n → runSteps k s = .next u → ¬ WritesNext u x) :
    t.readWord x = s.readWord x := by
  induction n generalizing t with
  | zero => cases h; rfl
  | succ n ih =>
    obtain ⟨u, hu, hlast⟩ := (runSteps_snoc n s t).mp h
    calc t.readWord x = u.readWord x := step_readWord_of_not_writesNext (hw n u n.lt_succ_self hu) hlast
      _ = s.readWord x := ih hu fun k w hk => hw k w (hk.trans n.lt_succ_self)

/-- Settles O28: the steps that do not write the cell keep what LOAD or the last writing step left there. -/
theorem readsReturnTheMostRecentWrite : Obligations.ReadsReturnTheMostRecentWrite := by
  refine ⟨fun n s t image entry x hrun hkept => ?_, fun n u v t x hw hstep hrun hkept => ?_⟩
  · rw [runSteps_readWord_of_not_writesNext hrun hkept, State.readWord_load]
  · rw [runSteps_readWord_of_not_writesNext hrun hkept, step_readWord_of_writesNext hw hstep]
    rfl

end Sys2Proof.Machine

/-! Encoding: the 48-bit pattern holds the three addresses in bit fields that do not overlap, and a triple's words are
the instruction's encoding (spec 30_encoding.md R91, R92, R95). -/

namespace Sys2Proof

theorem decode_encode_append (i : Instr) (rest : List Word) : decode (encode i ++ rest) = .ok i rest := by
  cases i; rfl

/-- A list of words decodes to an instruction exactly if it starts with that instruction's encoding. -/
theorem decode_eq_ok_iff {ws rest : List Word} {i : Instr} : decode ws = .ok i rest ↔ ws = encode i ++ rest := by
  refine ⟨fun h => ?_, fun h => h ▸ decode_encode_append i rest⟩
  match ws, h with
  | _ :: _ :: _ :: _, rfl => rfl

theorem tableWord_lt (i : Instr) : tableWord i < 2 ^ 48 := by
  obtain ⟨a, b, c⟩ := i
  have ha := a.isLt
  have hb := b.isLt
  have hc := c.isLt
  simp only [tableWord]
  omega

section Fields
variable (a b c : Addr)

/-- `A` is `T[47:32]` (R91). -/
theorem tableWord_div_pow_32 : tableWord (.subleq a b c) / 2 ^ 32 = a.toNat := by
  have hb := b.isLt
  have hc := c.isLt
  simp only [tableWord]
  omega

/-- `B` is `T[31:16]` (R91). -/
theorem tableWord_div_pow_16_mod : tableWord (.subleq a b c) / 2 ^ 16 % 2 ^ 16 = b.toNat := by
  have hb := b.isLt
  have hc := c.isLt
  simp only [tableWord]
  omega

/-- `C` is `T[15:0]` (R91). -/
theorem tableWord_mod_pow_16 : tableWord (.subleq a b c) % 2 ^ 16 = c.toNat := by
  have hc := c.isLt
  simp only [tableWord]
  omega

end Fields

/-- The words read off an instruction's table pattern are the words that encode it. -/
theorem wordsOfTable_tableWord (i : Instr) : wordsOfTable 48 (tableWord i) = encode i := by
  obtain ⟨a, b, c⟩ := i
  have ofNat_eq {n : Nat} {x : Addr} (h : n % 2 ^ 16 = x.toNat) : BitVec.ofNat 16 n = wordOfAddr x :=
    BitVec.eq_of_toNat_eq ((BitVec.toNat_ofNat n 16).trans h)
  rw [wordsOfTable, Nat.mod_eq_of_lt (tableWord_lt _), tableWord_div_pow_32,
    ofNat_eq (Nat.mod_eq_of_lt a.isLt), ofNat_eq (tableWord_div_pow_16_mod a b c),
    ofNat_eq (tableWord_mod_pow_16 a b c), encode]

theorem decodeTableWord_tableWord (i : Instr) : decodeTableWord 48 (tableWord i) = some i := by
  have h : decode (wordsOfTable 48 (tableWord i)) = .ok i [] :=
    decode_eq_ok_iff.mpr (by rw [wordsOfTable_tableWord, List.append_nil])
  simp only [decodeTableWord, h]

/-- Every 48-bit pattern is some instruction's: the table's one row has mask 0 (R95). -/
theorem exists_tableWord_eq {w : Nat} (h : w < 2 ^ 48) : ∃ i : Instr, tableWord i = w := by
  refine ⟨.subleq (.ofNat 16 (w / 2 ^ 32)) (.ofNat 16 (w / 2 ^ 16)) (.ofNat 16 w), ?_⟩
  simp only [tableWord, BitVec.toNat_ofNat]
  omega

/-- Settles O3: every pattern is an instruction's pattern, so reading a pattern back is reading back an instruction,
and its bit fields are the instruction's three addresses. -/
theorem tableWordsAndInstructionsAgree : Obligations.TableWordsAndInstructionsAgree := by
  refine ⟨fun i => ⟨tableWord_lt i, decodeTableWord_tableWord i⟩, fun w hw => ?_, decode_encode_append,
    fun _ _ _ => decode_eq_ok_iff.mp⟩
  obtain ⟨⟨a, b, c⟩, rfl⟩ := exists_tableWord_eq hw
  exact ⟨a, b, c, decodeTableWord_tableWord _, rfl, (tableWord_div_pow_32 a b c).symm,
    (tableWord_div_pow_16_mod a b c).symm, (tableWord_mod_pow_16 a b c).symm⟩

end Sys2Proof

/-! SUBLEQ's result and jump: what the destination cell ends a step with, and when the jump is taken
(spec 40_subleq.md R113 to R116). -/

namespace Sys2Proof.Machine

theorem sint_eq_zero_iff (r : Word) : sint r = 0 ↔ r = 0 :=
  BitVec.toInt_inj (y := 0)

/-- Bit 15 is the sign bit of two's complement (00_scope.md R11). -/
theorem sint_neg_iff (r : Word) : sint r < 0 ↔ r.getLsbD 15 = true := by
  rw [sint, ← BitVec.msb_eq_getLsbD_last r, BitVec.msb_eq_toInt, decide_eq_true_iff]

/-- The jump condition in bits (R115). -/
theorem sint_le_zero_iff (r : Word) : sint r ≤ 0 ↔ r = 0 ∨ r.getLsbD 15 = true := by
  rw [le_iff_eq_or_lt, sint_eq_zero_iff, sint_neg_iff]

/-- Settles O7: the signed and the unsigned difference narrow to the same word, which is the result that SUBLEQ
stores and the dispatch then keeps or resets. -/
theorem subleqWritesTheWrappedDifference : Obligations.SubleqWritesTheWrappedDifference := by
  intro s a b c
  refine ⟨_, exec_subleq a b c s, word_sint_sub _ _, fun x => ?_⟩
  rw [word_sint_sub]
  exact subleqState_readWord a b c s x

/-- Settles O8: the dispatch leaves the pc alone, so the pc is the jump rule's on SUBLEQ's result. -/
theorem jumpFollowsTheNewResult : Obligations.JumpFollowsTheNewResult := by
  intro s a b c
  have hpc := subleqState_pc a b c s
  refine ⟨_, exec_subleq a b c s, fun hle => ?_, fun hpos => ?_, sint_le_zero_iff _⟩
  · exact hpc.trans (nextPc_of_le hle)
  · exact (congrArg BitVec.toNat (hpc.trans (nextPc_of_pos hpos))).trans (toNat_aadd s.pc 3)

end Sys2Proof.Machine

/-! The ports: what a step whose destination is an output port does, and which step halts the core
(spec 41_ports_and_halt.md R142 to R144, R151). -/

namespace Sys2Proof.Machine

theorem IsOutputPort.ne_addrBrk {c : Config} {b : Addr} (hport : IsOutputPort c b) (hwf : c.wf = true) :
    b ≠ c.addrBrk := by
  obtain ⟨hiout, hcout, -⟩ := Config.distinct_of_wf hwf
  obtain rfl | rfl := hport
  · exact hiout.symm
  · exact hcout.symm

theorem portEvents_addrIout {c : Config} (hwf : c.wf = true) (r : Word) :
    portEvents c c.addrIout r = [⟨.dec, wneg r⟩] := by
  obtain ⟨hbrk, -, -⟩ := Config.distinct_of_wf hwf
  rw [portEvents, if_neg hbrk.symm, if_pos rfl]

theorem portEvents_addrCout {c : Config} (hwf : c.wf = true) (r : Word) :
    portEvents c c.addrCout r = [⟨.char, wneg r⟩] := by
  obtain ⟨-, hbrk, hiout⟩ := Config.distinct_of_wf hwf
  rw [portEvents, if_neg hbrk.symm, if_neg hiout.symm, if_pos rfl]

theorem finalCell_of_isOutputPort {c : Config} {b : Addr} (hwf : c.wf = true) (hport : IsOutputPort c b) (r : Word) :
    finalCell c b r = 0 :=
  if_pos ⟨hport.ne_addrBrk hwf, hport⟩

theorem subleqState_halted_of_ne_addrBrk {s : State} {b : Addr} (a c : Addr) (hb : b ≠ s.config.addrBrk) :
    (subleqState a b c s).halted = s.halted := by
  simp [subleqState_halted, hb]

/-- On an output port SUBLEQ emits the port's events, leaves 0 in its cell, and goes on. -/
theorem exec_subleq_of_isOutputPort {s : State} {b : Addr} (a c : Addr) (hwf : s.config.wf = true)
    (hport : IsOutputPort s.config b) :
    ∃ t : State, exec (.subleq a b c) s = .next t ∧
      t.out = s.out ++ portEvents s.config b (wsub (s.readWord b) (s.readWord a)) ∧
      t.readWord b = 0 ∧ t.halted = s.halted := by
  refine ⟨_, exec_subleq a b c s, subleqState_out a b c s, ?_, ?_⟩
  · rw [subleqState_readWord, if_pos rfl, finalCell_of_isOutputPort hwf hport]
  · exact subleqState_halted_of_ne_addrBrk a c (hport.ne_addrBrk hwf)

/-- Settles O18: IOUT is an output port, and its event is the DEC of the recovered value. -/
theorem ioutEmitsTheRecoveredValueAndResets : Obligations.IoutEmitsTheRecoveredValueAndResets := by
  intro s a c hwf
  obtain ⟨t, hexec, hout, hcell, hhalted⟩ := exec_subleq_of_isOutputPort a c hwf (.inl rfl)
  rw [portEvents_addrIout hwf] at hout
  exact ⟨t, hexec, hout, hcell, hhalted⟩

/-- Settles O19: COUT is an output port, and its event is the CHAR of the recovered value. -/
theorem coutEmitsTheRecoveredValueAndResets : Obligations.CoutEmitsTheRecoveredValueAndResets := by
  intro s a c hwf
  obtain ⟨t, hexec, hout, hcell, hhalted⟩ := exec_subleq_of_isOutputPort a c hwf (.inr rfl)
  rw [portEvents_addrCout hwf] at hout
  exact ⟨t, hexec, hout, hcell, hhalted⟩

/-- A running core is halted after its step exactly if the step's destination is BRK (R142). -/
theorem steppedState_halted_iff {s : State} (h : s.halted = false) :
    (steppedState s).halted = true ↔ fetchedB s = s.config.addrBrk := by
  rw [steppedState, subleqState_halted, h, Bool.false_or, decide_eq_true_iff]

/-- Settles O25: a running core steps to its stepped state, which only the BRK dispatch halts. -/
theorem everyStepGoesOnUnlessBrk : Obligations.EveryStepGoesOnUnlessBrk := fun _ h =>
  ⟨_, step_running h, steppedState_halted_iff h⟩

end Sys2Proof.Machine

/-! Well-formed states and canonical memories (spec 10_state.md R43, 20_memory.md R60). -/

namespace Sys2Proof.Machine

/-- Settles O35: a step of a running core writes its one cell, which keeps the canonical form, and leaves the
configuration alone; a step of a halted core changes nothing. -/
theorem everyStepKeepsStatesWellFormed : Obligations.EveryStepKeepsStatesWellFormed := by
  rintro s t ⟨hmem, hconfig⟩ h
  obtain ⟨-, rfl⟩ | ⟨-, rfl⟩ := step_cases h
  · exact ⟨hmem, hconfig⟩
  · exact ⟨subleqState_mem_wf _ _ _ hmem, (congrArg Config.wf (subleqState_config ..)).trans hconfig⟩

/-- Settles O36: the empty memory is canonical and the test configuration's ports are distinct. -/
theorem resetStateIsWellFormed : Obligations.ResetStateIsWellFormed :=
  ⟨State.reset_mem_wf, by decide⟩

/-- Settles O37: the reset state's fields are those of a LOAD of the empty image, where every cell reads as an
unlisted one. -/
theorem resetStateIsALoad : Obligations.ResetStateIsALoad :=
  ⟨rfl, rfl, rfl, rfl, State.readWord_load State.reset [] 0⟩

/-! ### Canonical memories: the words read determine the list -/

theorem Memory.lookup_cons_self (k : Nat) (v : Word) (m : Memory) : Memory.lookup ((k, v) :: m) k = v :=
  if_pos rfl

theorem Memory.lookup_cons_of_lt {k j : Nat} (v : Word) (m : Memory) (h : k < j) :
    Memory.lookup ((k, v) :: m) j = Memory.lookup m j :=
  if_neg h.ne

theorem Memory.wf_cons_iff {k : Nat} {v : Word} {m : Memory} :
    Memory.wf ((k, v) :: m) ↔ (∀ c ∈ m, k < c.1) ∧ k < memWords ∧ v ≠ Memory.unlisted ∧ Memory.wf m := by
  simp only [Memory.wf, List.pairwise_cons, List.forall_mem_cons]
  tauto

/-- A memory that reads a listed word back has an address at or below that word's. -/
theorem Memory.not_forall_lt_of_lookup_eq {k : Nat} {v : Word} {m m' : Memory} (hv : v ≠ Memory.unlisted)
    (hread : Memory.lookup ((k, v) :: m) k = Memory.lookup m' k) : ¬ ∀ c ∈ m', k < c.1 := fun hlt =>
  hv (by rw [← Memory.lookup_cons_self k v m, hread, Memory.lookup_of_lt hlt])

/-- Of two canonical memories that read alike, neither starts below the other. -/
theorem Memory.head_le_of_lookup_eq {k k' : Nat} {v v' : Word} {m m' : Memory} (h : Memory.wf ((k, v) :: m))
    (h' : Memory.wf ((k', v') :: m'))
    (hread : Memory.lookup ((k, v) :: m) k' = Memory.lookup ((k', v') :: m') k') : k ≤ k' := by
  obtain ⟨hm, -⟩ := Memory.wf_cons_iff.mp h
  obtain ⟨-, -, hv', -⟩ := Memory.wf_cons_iff.mp h'
  by_contra! hlt
  exact Memory.not_forall_lt_of_lookup_eq hv' hread.symm
    (List.forall_mem_cons.mpr ⟨hlt, fun c hc => hlt.trans (hm c hc)⟩)

/-- Canonical memories that read alike start with the same entry, and their rests read alike. -/
theorem Memory.eq_of_lookup_eq {m m' : Memory} (h : Memory.wf m) (h' : Memory.wf m')
    (hread : ∀ k < memWords, Memory.lookup m k = Memory.lookup m' k) : m = m' := by
  induction m generalizing m' with
  | nil =>
    cases m' with
    | nil => rfl
    | cons d m' =>
      obtain ⟨-, hk, hv, -⟩ := Memory.wf_cons_iff.mp h'
      exact absurd nofun (Memory.not_forall_lt_of_lookup_eq hv (hread d.1 hk).symm)
  | cons d m ih =>
    obtain ⟨k, v⟩ := d
    obtain ⟨hm, hk, hv, hwf⟩ := Memory.wf_cons_iff.mp h
    cases m' with
    | nil => exact absurd nofun (Memory.not_forall_lt_of_lookup_eq hv (hread k hk))
    | cons d' m' =>
      obtain ⟨k', v'⟩ := d'
      obtain ⟨hm', hk', -, hwf'⟩ := Memory.wf_cons_iff.mp h'
      obtain rfl : k = k' := Nat.le_antisymm (Memory.head_le_of_lookup_eq h h' (hread k' hk'))
        (Memory.head_le_of_lookup_eq h' h (hread k hk).symm)
      obtain rfl : v = v' := by simpa only [Memory.lookup_cons_self] using hread k hk
      refine congrArg _ (ih hwf hwf' fun j hj => ?_)
      obtain hle | hlt := le_or_gt j k
      · rw [Memory.lookup_of_lt fun c hc => hle.trans_lt (hm c hc),
          Memory.lookup_of_lt fun c hc => hle.trans_lt (hm' c hc)]
      · simpa only [Memory.lookup_cons_of_lt _ _ hlt] using hread j hj

/-- Settles O38: every address below 65536 is the number of some cell, so the two lists agree entry by entry. -/
theorem equalReadsMeanEqualMemory : Obligations.EqualReadsMeanEqualMemory := by
  refine fun m m' h h' hread => Memory.eq_of_lookup_eq h h' fun k hk => ?_
  have hcell : (BitVec.ofNat 16 k).toNat = k := Nat.mod_eq_of_lt hk
  simpa only [Memory.read, hcell] using hread (BitVec.ofNat 16 k)

end Sys2Proof.Machine

/-! Decoding and the fetch: what a step runs, and a triple placed where the next step fetches (spec 30_encoding.md R90
to R96, 20_memory.md R74). -/

namespace Sys2Proof.Machine

theorem step_eq_exec_fetchInstr {s : State} (h : s.halted = false) : step s = exec (fetchInstr s) s :=
  step_running h

/-- Settles O1: the three words decode to the triple that the step fetches. -/
theorem stepRunsTheDecodedTriple : Obligations.StepRunsTheDecodedTriple := by
  rintro s i rest h ⟨⟩ -
  exact step_eq_exec_fetchInstr h

/-- Settles O2: by running the decoder on the words. -/
theorem specWordsDecodeToTheirTriples : Obligations.SpecWordsDecodeToTheirTriples := by
  unfold Obligations.SpecWordsDecodeToTheirTriples
  decide

section PlaceWords
variable (s : State) (a : Addr) (ws : List Word)

/-- Placing words changes memory only. -/
theorem placeWords_eq_with_mem : placeWords s a ws = { s with mem := (placeWords s a ws).mem } := by
  induction ws generalizing s a with
  | nil => rfl
  | cons w ws ih => exact ih (s.writeWord a w) (aadd a 1)

@[simp] theorem placeWords_pc : (placeWords s a ws).pc = s.pc := by rw [placeWords_eq_with_mem]

@[simp] theorem placeWords_halted : (placeWords s a ws).halted = s.halted := by rw [placeWords_eq_with_mem]

@[simp] theorem placeWords_out : (placeWords s a ws).out = s.out := by rw [placeWords_eq_with_mem]

@[simp] theorem placeWords_config : (placeWords s a ws).config = s.config := by rw [placeWords_eq_with_mem]

end PlaceWords

/-- What each cell reads as once a triple has been placed: its three cells differ, also where they wrap. -/
theorem placeWords_triple_readWord (s : State) (a : Addr) (w₀ w₁ w₂ : Word) (x : Addr) :
    (placeWords s a [w₀, w₁, w₂]).readWord x =
      if x = aadd a 2 then w₂ else if x = aadd a 1 then w₁ else if x = a then w₀ else s.readWord x := by
  simp only [placeWords, State.readWord_writeWord, aadd_aadd]

theorem aadd_ne_self (a : Addr) {k : Nat} (hk : k < 65536) (h : k ≠ 0) : aadd a k ≠ a := by
  simpa only [aadd_zero] using aadd_ne a hk (by decide : 0 < 65536) h

/-- The fetch finds the triple that was placed at pc. -/
theorem fetchInstr_placeWords (s : State) (w₀ w₁ w₂ : Word) :
    fetchInstr (placeWords s s.pc [w₀, w₁, w₂]) = decodeTriple w₀ w₁ w₂ := by
  have h₁ : aadd s.pc 1 ≠ s.pc := aadd_ne_self s.pc (by decide) (by decide)
  have h₂ : aadd s.pc 2 ≠ s.pc := aadd_ne_self s.pc (by decide) (by decide)
  have h₁₂ : aadd s.pc 1 ≠ aadd s.pc 2 := aadd_ne s.pc (by decide) (by decide) (by decide)
  simp only [fetchInstr, placeWords_pc, placeWords_triple_readWord, h₁, h₁.symm, h₂.symm, h₁₂, if_true, if_false]

/-- Settles O4: the pattern's three words decode, and the fetch finds them at pc. -/
theorem placedTableWordIsTheNextInstruction : Obligations.PlacedTableWordIsTheNextInstruction := by
  refine fun s w => ⟨_, rfl, ?_, placeWords_pc .., placeWords_out .., placeWords_config .., fun x h₀ h₁ h₂ => ?_⟩
  · have hrun : (s.withFetchWord 48 w).halted = false := placeWords_halted ..
    rw [step_eq_exec_fetchInstr hrun]
    exact congrArg (exec · _) (fetchInstr_placeWords { s with halted := false } _ _ _)
  · refine (placeWords_triple_readWord ..).trans ?_
    rw [if_neg h₂, if_neg h₁, if_neg h₀]
    rfl

end Sys2Proof.Machine

/-! One step: each part of the state a running core steps to, in the words of the rule (spec 40_subleq.md R110,
41_ports_and_halt.md R141). -/

namespace Sys2Proof.Machine

theorem subleqState_pc_eq_ite (a b c : Addr) (s : State) :
    (subleqState a b c s).pc = if sint (wsub (s.readWord b) (s.readWord a)) ≤ 0 then c else aadd s.pc 3 :=
  (subleqState_pc a b c s).trans (nextPc_eq ..)

theorem steppedState_pc (s : State) :
    (steppedState s).pc =
      if sint (wsub (s.readWord (fetchedB s)) (s.readWord (fetchedA s))) ≤ 0 then fetchedC s else aadd s.pc 3 :=
  subleqState_pc_eq_ite ..

theorem steppedState_config (s : State) : (steppedState s).config = s.config := subleqState_config ..

theorem steppedState_out (s : State) :
    (steppedState s).out =
      s.out ++ portEvents s.config (fetchedB s) (wsub (s.readWord (fetchedB s)) (s.readWord (fetchedA s))) :=
  subleqState_out ..

theorem steppedState_readWord (s : State) (x : Addr) :
    (steppedState s).readWord x =
      if x = fetchedB s then
        finalCell s.config (fetchedB s) (wsub (s.readWord (fetchedB s)) (s.readWord (fetchedA s)))
      else s.readWord x :=
  subleqState_readWord ..

theorem steppedState_readWord_fetchedB (s : State) :
    (steppedState s).readWord (fetchedB s) =
      finalCell s.config (fetchedB s) (wsub (s.readWord (fetchedB s)) (s.readWord (fetchedA s))) := by
  rw [steppedState_readWord, if_pos rfl]

theorem steppedState_readWord_of_ne {s : State} {x : Addr} (h : x ≠ fetchedB s) :
    (steppedState s).readWord x = s.readWord x := by
  rw [steppedState_readWord, if_neg h]

theorem steppedState_halted_of_ne_addrBrk {s : State} (h : s.halted = false) (hb : fetchedB s ≠ s.config.addrBrk) :
    (steppedState s).halted = false :=
  (subleqState_halted_of_ne_addrBrk _ _ hb).trans h

theorem steppedState_eq_of_step {s t : State} (hrun : s.halted = false) (h : step s = .next t) : t = steppedState s := by
  rw [step_running hrun] at h
  cases h
  rfl

/-- Settles O5: each clause is what a running step does to one part of the state. -/
theorem stepHasTheWholeEffectOfTheRule : Obligations.StepHasTheWholeEffectOfTheRule := fun s hrun =>
  ⟨_, step_running hrun, steppedState_pc s, steppedState_readWord s, steppedState_halted_iff hrun,
    steppedState_out s, steppedState_config s⟩

/-! ### The halted core -/

theorem runSteps_of_halted {s : State} (h : s.halted = true) (n : Nat) : runSteps n s = .next s := by
  induction n with
  | zero => rfl
  | succ n ih => rw [runSteps_succ n (step_of_halted h), ih]

@[simp] theorem newEvents_self (s : State) : newEvents s s = [] := List.drop_length

/-- Settles O6: STEP of a halted core is the step that changes nothing, and the three reads answer the session they
were given. -/
theorem haltedCoreTakesNoStep : Obligations.HaltedCoreTakesNoStep := by
  refine ⟨fun s h => runSteps_of_halted h, fun σ σ' op reply h hop => ?_⟩
  cases op with
  | load image entry => exact ⟨.inr ⟨image, entry, rfl⟩, nofun⟩
  | step =>
    have hsame : hostOp .step σ = some (σ, .stepped []) := by
      simp [hostOp, hostStep_of_step (step_of_halted h), canStep, h]
    obtain ⟨rfl, rfl⟩ := Prod.mk.inj (Option.some.inj (hsame.symm.trans hop))
    exact ⟨.inl rfl, fun _ => ⟨rfl, rfl⟩⟩
  | readHalted => cases hop; exact ⟨.inl rfl, nofun⟩
  | peek a => cases hop; exact ⟨.inl rfl, nofun⟩
  | readPc => cases hop; exact ⟨.inl rfl, nofun⟩

/-! ### SUBLEQ's effect: frame, result and jump -/

theorem portEvents_of_not_output {c : Config} {b : Addr} (h : b = c.addrBrk ∨ ¬ IsOutputPort c b) (r : Word) :
    portEvents c b r = [] := by
  obtain rfl | h := h
  · exact if_pos rfl
  · obtain ⟨hiout, hcout⟩ := not_or.mp h
    simp [portEvents, hiout, hcout]

theorem finalCell_of_not_output {c : Config} {b : Addr} (h : b = c.addrBrk ∨ ¬ IsOutputPort c b) (r : Word) :
    finalCell c b r = r :=
  if_neg fun ⟨hbrk, hport⟩ => h.elim hbrk (· hport)

theorem finalCell_of_output {c : Config} {b : Addr} (hbrk : b ≠ c.addrBrk) (hport : IsOutputPort c b) (r : Word) :
    finalCell c b r = 0 :=
  if_pos ⟨hbrk, hport⟩

theorem finalCell_zero (c : Config) (b : Addr) : finalCell c b 0 = 0 := ite_self 0

theorem subleqState_readWord_destination (a b c : Addr) (s : State) :
    (subleqState a b c s).readWord b = finalCell s.config b (wsub (s.readWord b) (s.readWord a)) := by
  rw [subleqState_readWord, if_pos rfl]
  rfl

/-- Settles O9: by what SUBLEQ does to each part of the state. -/
theorem subleqFrame : Obligations.SubleqFrame := by
  rintro s _ a b c ⟨⟩
  refine ⟨fun x => subleqState_readWord_ne a c s, subleqState_config a b c s,
    subleqState_halted_of_ne_addrBrk a c, fun h => ?_, ⟨_, (subleqState_out a b c s).symm⟩⟩
  rw [subleqState_out, portEvents_of_not_output h, List.append_nil]

@[simp] theorem wsub_self (x : Word) : wsub x x = 0 := (wsub_eq_sub x x).trans (BitVec.sub_self x)

/-- Settles O10: the difference is 0, which the dispatch keeps at every port, and 0 takes the jump. -/
theorem selfSubtractionClearsAndJumps : Obligations.SelfSubtractionClearsAndJumps := by
  refine fun s a c => ⟨_, exec_subleq a a c s, ?_, ?_⟩
  · rw [subleqState_readWord_destination, wsub_self, finalCell_zero]
  · rw [subleqState_pc_eq_ite, wsub_self, if_pos (by decide)]

section Overflow
variable {x y : Word}

theorem sint_wsub_of_mem_range (hlo : -32768 ≤ sint x - sint y) (hhi : sint x - sint y ≤ 32767) :
    sint (wsub x y) = sint x - sint y := by
  rw [sint_wsub, Int.bmod_eq_of_le (by omega) (by omega)]

theorem sint_wsub_of_gt (h : 32767 < sint x - sint y) : sint (wsub x y) = sint x - sint y - 65536 := by
  have := sint_lt x
  have := le_sint y
  rw [sint_wsub, Int.bmod_def]
  omega

theorem sint_wsub_of_lt (h : sint x - sint y < -32768) : sint (wsub x y) = sint x - sint y + 65536 := by
  have := le_sint x
  have := sint_lt y
  rw [sint_wsub, Int.bmod_def]
  omega

end Overflow

/-- Settles O11: a difference of two signed words misses the range by less than 65536, so it wraps once, to the other
side of 0. -/
theorem overflowWrapsAndDecidesTheJump : Obligations.OverflowWrapsAndDecidesTheJump := by
  intro s a b c
  have hpc := subleqState_pc_eq_ite a b c s
  have hx := sint_lt (s.readWord b)
  have hx' := le_sint (s.readWord b)
  have hy := sint_lt (s.readWord a)
  have hy' := le_sint (s.readWord a)
  refine ⟨_, exec_subleq a b c s, fun hport => ?_, sint_wsub_of_mem_range, fun habove => ?_, fun hbelow => ?_, hpc,
    fun hvb hva => ?_, fun hvb hva => ?_⟩
  · rw [subleqState_readWord_destination, finalCell_of_not_output (.inr hport)]
  · have hr := sint_wsub_of_gt habove
    exact ⟨hr, hpc.trans (if_pos (by omega))⟩
  · have hr := sint_wsub_of_lt hbelow
    exact ⟨hr, hpc.trans (if_neg (by omega))⟩
  · rw [hpc, hvb, hva]
    exact ⟨by decide, if_pos (by decide)⟩
  · rw [hpc, hvb, hva]
    exact ⟨by decide, if_neg (by decide)⟩

theorem wsub_wsub_self (x v : Word) : wsub x (wsub x v) = v := by
  simp only [wsub_eq_sub, sub_sub_cancel]

/-- Settles O16: SUBLEQ subtracts the difference again, and the operand's cell is not its destination. -/
theorem everyCellCanBeGivenEveryValue : Obligations.EveryCellCanBeGivenEveryValue := by
  refine fun s a b c v hab ha => ⟨_, exec_subleq a b c s, ?_, subleqState_readWord_ne a c s hab⟩
  rw [subleqState_readWord_destination, ha, wsub_wsub_self]
  rfl

/-! ### A step that writes words of a triple -/

theorem portEvents_of_output {c : Config} {b : Addr} (hbrk : b ≠ c.addrBrk) (hport : IsOutputPort c b) (r : Word) :
    portEvents c b r = [⟨if b = c.addrIout then .dec else .char, wneg r⟩] := by
  rw [portEvents, if_neg hbrk]
  by_cases hiout : b = c.addrIout
  · rw [if_pos hiout, if_pos hiout]
  · rw [if_neg hiout, if_neg hiout, if_pos (hport.resolve_left hiout)]

theorem portEvents_ne_nil_iff (c : Config) (b : Addr) (r : Word) :
    portEvents c b r ≠ [] ↔ b ≠ c.addrBrk ∧ IsOutputPort c b := by
  refine ⟨fun h => ?_, fun ⟨hbrk, hport⟩ => by simp [portEvents_of_output hbrk hport]⟩
  by_contra hno
  exact h (portEvents_of_not_output (by tauto) r)

/-- A word fetched after a step is the final word of the destination or the word that was there before. -/
theorem addr_steppedState_readWord (s : State) (x : Addr) :
    addr ((steppedState s).readWord x) =
      if fetchedB s = x then
        addr (finalCell s.config (fetchedB s) (wsub (s.readWord (fetchedB s)) (s.readWord (fetchedA s))))
      else addr (s.readWord x) := by
  rw [steppedState_readWord, apply_ite addr]
  simp only [eq_comm]

/-- Settles O13: the step's effect is stated in the words fetched before the write, and a fetch after it reads each
of the three cells once more. -/
theorem stepUsesTheWordsItFetched : Obligations.StepUsesTheWordsItFetched := by
  intro s hrun a b c r final _
  refine ⟨_, step_running hrun, steppedState_pc s, steppedState_halted_iff hrun, ?_,
    steppedState_readWord_fetchedB s, fun hpc => ?_⟩
  · rw [steppedState_out, Ne, List.append_right_eq_self]
    exact portEvents_ne_nil_iff ..
  · simp only [fetchedA, fetchedB, fetchedC, hpc]
    exact ⟨addr_steppedState_readWord .., addr_steppedState_readWord .., addr_steppedState_readWord ..⟩

theorem aadd_inj_iff (a : Addr) {j k : Nat} (hj : j < 65536) (hk : k < 65536) : aadd a j = aadd a k ↔ j = k :=
  ⟨fun h => by_contra fun hne => aadd_ne a hj hk hne h, congrArg (aadd a)⟩

/-- Settles O14: of the next triple's three words only the one at the destination has changed, and since the core
still runs, the destination is not BRK. -/
theorem patchedWordIsFetchedByTheNextStep : Obligations.PatchedWordIsFetchedByTheNextStep := by
  intro s t k hrun hstep ht hk hdest w
  obtain rfl := steppedState_eq_of_step hrun hstep
  have hbrk : fetchedB s ≠ s.config.addrBrk := fun h => by simp [(steppedState_halted_iff hrun).mpr h] at ht
  have hw : finalCell s.config (fetchedB s) (wsub (s.readWord (fetchedB s)) (s.readWord (fetchedA s))) = w := by
    simp only [finalCell, hbrk, ne_eq, not_false_eq_true, true_and, w]
  have hread (j : Nat) (hj : j < 3) : addr ((steppedState s).readWord (aadd (steppedState s).pc j)) =
      if k = j then addr w else addr (s.readWord (aadd (steppedState s).pc j)) := by
    rw [addr_steppedState_readWord, hw, ← hdest]
    simp only [aadd_inj_iff _ (hk.trans (by decide)) (hj.trans (by decide))]
  have hread₀ := hread 0 (by decide)
  rw [aadd_zero] at hread₀
  rw [step_eq_exec_triple_at ht rfl, hread₀, hread 1 (by decide), hread 2 (by decide)]

end Sys2Proof.Machine

/-! The special jump targets and the one-instruction loop (spec 40_subleq.md R121). -/

namespace Sys2Proof.Machine

theorem steppedState_pc_of_fetchedC_eq {s : State} (hc : fetchedC s = aadd s.pc 3) :
    (steppedState s).pc = aadd s.pc 3 := by
  rw [steppedState_pc, hc, ite_self]

theorem steppedState_pc_of_le {s : State}
    (hle : sint (wsub (s.readWord (fetchedB s)) (s.readWord (fetchedA s))) ≤ 0) :
    (steppedState s).pc = fetchedC s := by
  rw [steppedState_pc, if_pos hle]

/-- The destination is none of the triple's own words. -/
structure SparesItsTriple (s : State) : Prop where
  word₀ : fetchedB s ≠ s.pc
  word₁ : fetchedB s ≠ aadd s.pc 1
  word₂ : fetchedB s ≠ aadd s.pc 2

/-- A step that goes on at its own pc and spares its triple is followed by the same triple. -/
theorem SparesItsTriple.fetched_steppedState {s : State} (h : SparesItsTriple s) (hpc : (steppedState s).pc = s.pc) :
    fetchedA (steppedState s) = fetchedA s ∧ fetchedB (steppedState s) = fetchedB s ∧
      fetchedC (steppedState s) = fetchedC s := by
  refine ⟨?_, ?_, ?_⟩
  · rw [fetchedA, hpc, steppedState_readWord_of_ne h.word₀.symm, fetchedA]
  · rw [fetchedB, hpc, steppedState_readWord_of_ne h.word₁.symm, fetchedB]
  · rw [fetchedC, hpc, steppedState_readWord_of_ne h.word₂.symm, fetchedC]

/-- The core runs, and its next triple is `(b, b, pc)` with `b` no word of the triple and not BRK. -/
structure IsOneInstructionLoop (s : State) : Prop where
  running    : s.halted = false
  sameCell   : fetchedA s = fetchedB s
  target     : fetchedC s = s.pc
  spares     : SparesItsTriple s
  neverHalts : fetchedB s ≠ s.config.addrBrk

namespace IsOneInstructionLoop
variable {s : State}

/-- The loop subtracts its cell from itself. -/
theorem result (h : IsOneInstructionLoop s) : wsub (s.readWord (fetchedB s)) (s.readWord (fetchedA s)) = 0 := by
  rw [h.sameCell, wsub_self]

theorem pc_steppedState (h : IsOneInstructionLoop s) : (steppedState s).pc = s.pc :=
  (steppedState_pc_of_le (by rw [h.result]; decide)).trans h.target

theorem fetchedB_steppedState (h : IsOneInstructionLoop s) : fetchedB (steppedState s) = fetchedB s :=
  (h.spares.fetched_steppedState h.pc_steppedState).2.1

theorem out_steppedState (h : IsOneInstructionLoop s) :
    (steppedState s).out = s.out ++ portEvents s.config (fetchedB s) 0 := by
  rw [steppedState_out, h.result]

/-- A step of the loop leads to the loop. -/
theorem steppedState_isLoop (h : IsOneInstructionLoop s) : IsOneInstructionLoop (steppedState s) := by
  obtain ⟨hrun, hab, hc, ⟨h₀, h₁, h₂⟩, hbrk⟩ := id h
  have hpc := h.pc_steppedState
  obtain ⟨ha', hb', hc'⟩ := h.spares.fetched_steppedState hpc
  refine ⟨steppedState_halted_of_ne_addrBrk hrun hbrk, ?_, ?_, ⟨?_, ?_, ?_⟩, ?_⟩
  · rw [ha', hb', hab]
  · rw [hc', hpc, hc]
  · rwa [hb', hpc]
  · rwa [hb', hpc]
  · rwa [hb', hpc]
  · rwa [hb', steppedState_config]

/-- After `n` steps the loop is where it was and has emitted its port's events of the value 0 `n` times. -/
theorem runSteps_isLoop (h : IsOneInstructionLoop s) (n : Nat) :
    ∃ t : State, runSteps n s = .next t ∧ IsOneInstructionLoop t ∧ t.pc = s.pc ∧
      t.out = s.out ++ (List.replicate n (portEvents s.config (fetchedB s) 0)).flatten := by
  induction n generalizing s with
  | zero => exact ⟨s, rfl, h, rfl, (List.append_nil _).symm⟩
  | succ n ih =>
    obtain ⟨t, hrun, ht, hpc, hout⟩ := ih h.steppedState_isLoop
    refine ⟨t, (runSteps_succ n (step_running h.running)).trans hrun, ht, hpc.trans h.pc_steppedState, ?_⟩
    rw [hout, h.out_steppedState, h.fetchedB_steppedState, steppedState_config, List.append_assoc,
      List.replicate_succ, List.flatten_cons]

end IsOneInstructionLoop

/-- The events of the value 0 that `n` steps with the destination `b` emit. -/
theorem flatten_replicate_portEvents_zero {c : Config} {b : Addr} (hbrk : b ≠ c.addrBrk) (n : Nat) :
    (List.replicate n (portEvents c b 0)).flatten =
      if b = c.addrIout then List.replicate n ⟨.dec, 0⟩
      else if b = c.addrCout then List.replicate n ⟨.char, 0⟩
      else [] := by
  have hzero : wneg 0 = 0 := rfl
  rw [portEvents, if_neg hbrk, hzero]
  split
  · exact List.flatten_replicate_singleton
  · split
    · exact List.flatten_replicate_singleton
    · exact List.flatten_replicate_nil

/-- Settles O15: the fall-through address does not depend on the jump, a taken jump to the triple's own address
fetches the words it left, and the loop goes on for any number of steps by induction. -/
theorem specialTargetsAndTheOneInstructionLoop : Obligations.SpecialTargetsAndTheOneInstructionLoop := by
  refine ⟨fun s hrun hc => ⟨_, step_running hrun, steppedState_pc_of_fetchedC_eq hc⟩, fun s hrun hc hle => ?_,
    fun s n hrun hab hc h₀ h₁ h₂ hbrk => ?_⟩
  · have hpc := (steppedState_pc_of_le hle).trans hc
    exact ⟨_, step_running hrun, hpc, fun h₀ h₁ h₂ => SparesItsTriple.fetched_steppedState ⟨h₀, h₁, h₂⟩ hpc⟩
  · obtain ⟨t, ht, hloop, hpc, hout⟩ := IsOneInstructionLoop.runSteps_isLoop ⟨hrun, hab, hc, ⟨h₀, h₁, h₂⟩, hbrk⟩ n
    rw [flatten_replicate_portEvents_zero hbrk] at hout
    exact ⟨t, ht, hpc, hloop.running, hout⟩

end Sys2Proof.Machine

/-! The ports: what each destination triggers, the value an output port recovers, and what the host shows
(spec 41_ports_and_halt.md R140 to R148). -/

namespace Sys2Proof.Machine

/-- Settles O17: BRK is no output port to the dispatch, so its cell keeps the result, and the halted core takes no
step. -/
theorem brkHaltsAfterCompletingTheStep : Obligations.BrkHaltsAfterCompletingTheStep := by
  intro s a c
  have hhalted : (subleqState a s.config.addrBrk c s).halted = true := by simp [subleqState_halted]
  refine ⟨_, exec_subleq .., hhalted, ?_, subleqState_pc_eq_ite .., ?_, step_of_halted hhalted⟩
  · rw [subleqState_readWord_destination, finalCell_of_not_output (.inl rfl)]
  · rw [subleqState_out, portEvents_of_not_output (.inl rfl), List.append_nil]

theorem uint_of_nonneg {w : Word} (h : 0 ≤ sint w) : (uint w : Int) = sint w := by
  have := w.isLt
  simp only [sint, uint, BitVec.toInt_eq_toNat_cond] at h ⊢
  split at h <;> omega

/-- Settles O20: a non-negative word is below U+8000, hence below the surrogates, and the replacement character is a
scalar value itself. -/
theorem hostShowsAScalarValueForEveryEvent : Obligations.HostShowsAScalarValueForEveryEvent := by
  intro v
  have hlt := sint_lt v
  refine ⟨rfl, le_sint v, Int.lt_add_one_iff.mp hlt, _, rfl, ?_⟩
  obtain hpos | hneg := le_or_gt 0 (sint v)
  · have huint := uint_of_nonneg hpos
    rw [if_pos hpos]
    exact ⟨.inl (show uint v ≤ 0xD7FF by omega), fun _ => ⟨rfl, huint⟩, fun h => absurd hpos h.not_ge⟩
  · rw [if_neg hneg.not_ge]
    exact ⟨.inr (by decide), fun h => absurd h hneg.not_ge, fun _ => rfl⟩

/-! ### The recovered value -/

theorem wneg_wsub (x y : Word) : wneg (wsub x y) = wsub y x := by
  rw [wneg_eq_neg, wsub_eq_sub, wsub_eq_sub, neg_sub]

theorem wsub_zero (x : Word) : wsub x 0 = x := (wsub_eq_sub x 0).trans (BitVec.sub_zero x)

theorem wsub_eq_left_iff (x p : Word) : wsub x p = x ↔ p = 0 := by
  rw [wsub_eq_sub, sub_eq_self]

theorem sint_wneg_of_ne {r : Word} (h : r ≠ word (-32768)) : sint (wneg r) = -sint r := by
  have hne : sint r ≠ -32768 := fun he => h (BitVec.eq_of_toInt_eq he)
  have hlo := le_sint r
  have hhi := sint_lt r
  rw [sint_wneg, Int.bmod_eq_of_le (by omega) (by omega)]

theorem exec_subleq_emits_recovered_value {s : State} {b : Addr} (a c : Addr) (hwf : s.config.wf = true)
    (hport : IsOutputPort s.config b) :
    ∃ (t : State) (e : OutEvent), exec (.subleq a b c) s = .next t ∧ t.out = s.out ++ [e] ∧
      e.value = wneg (wsub (s.readWord b) (s.readWord a)) ∧ t.readWord b = 0 := by
  obtain ⟨t, hexec, hout, hcell, -⟩ := exec_subleq_of_isOutputPort a c hwf hport
  rw [portEvents_of_output (hport.ne_addrBrk hwf) hport] at hout
  exact ⟨t, _, hexec, hout, rfl, hcell⟩

/-- Settles O21: the event carries the wrapped negation, which is exact for every word but the minimum, and the
negation of `0 -w x` is `x`. -/
theorem recoveredValueUndoesTheSubtraction : Obligations.RecoveredValueUndoesTheSubtraction := by
  intro s a b c hwf hport
  obtain ⟨t, e, hexec, hout, hvalue, -⟩ := exec_subleq_emits_recovered_value a c hwf hport
  refine ⟨t, e, hexec, hout, hvalue, fun hmin => ?_, fun hmin => ?_, fun hzero => ?_⟩
  · rw [hvalue, hmin]
    decide
  · rw [hvalue, sint_wneg_of_ne hmin]
  · rw [hvalue, wneg_wsub, hzero, wsub_zero]

/-- Settles O22: negating `p -w x` gives `x -w p`. -/
theorem firstOutputIsOffByTheCellsValue : Obligations.FirstOutputIsOffByTheCellsValue := by
  rintro s a b c _ _ hwf hport rfl rfl
  obtain ⟨t, e, hexec, hout, hvalue, hcell⟩ := exec_subleq_emits_recovered_value a c hwf hport
  have hvalue' := hvalue.trans (wneg_wsub _ _)
  exact ⟨t, e, hexec, hout, hvalue, hvalue', hvalue' ▸ wsub_eq_left_iff _ _, hcell⟩

/-! ### Which port a step triggers -/

/-- Settles O23: the events, the halt and the final word are those of the destination, and every other cell, a port's
or not, is kept. -/
theorem onlyTheDestinationTriggersAPort : Obligations.OnlyTheDestinationTriggersAPort := by
  refine fun s hrun => ⟨_, step_running hrun, fun hno => ?_, fun hbrk hport => ?_, fun p _ hp =>
    steppedState_readWord_of_ne hp⟩
  · obtain ⟨hbrk, hport⟩ := not_or.mp hno
    refine ⟨?_, steppedState_halted_of_ne_addrBrk hrun hbrk, ?_⟩
    · rw [steppedState_out, portEvents_of_not_output (.inr hport), List.append_nil]
    · rw [steppedState_readWord_fetchedB, finalCell_of_not_output (.inr hport)]
  · rw [steppedState_readWord_fetchedB, finalCell_of_output hbrk hport]

/-- Settles O24: the dispatch tests BRK, then IOUT, then COUT, and stops at the first that matches. -/
theorem atMostOnePortInTheOrderBrkIoutCout : Obligations.AtMostOnePortInTheOrderBrkIoutCout := by
  intro s a b c
  have hout := subleqState_out a b c s
  have hhalted (hbrk : b ≠ s.config.addrBrk) := subleqState_halted_of_ne_addrBrk a c hbrk
  refine ⟨_, exec_subleq a b c s, fun hbrk => ⟨?_, ?_⟩, fun hbrk hiout => ⟨hhalted hbrk, ?_⟩,
    fun hbrk hiout hcout => ⟨hhalted hbrk, ?_⟩, fun hno => ?_⟩
  · simp [subleqState_halted, hbrk]
  · rw [hout, portEvents_of_not_output (.inl hbrk), List.append_nil]
  · rw [hout, portEvents_of_output hbrk (.inl hiout), if_pos hiout]
    rfl
  · rw [hout, portEvents_of_output hbrk (.inr hcout), if_neg hiout]
    rfl
  · obtain ⟨hbrk, hport⟩ := not_or.mp hno
    exact ⟨hhalted hbrk, by rw [hout, portEvents_of_not_output (.inr hport), List.append_nil]⟩

/-- Settles O26: a halted core's step appends nothing, and a running core's appends the events of its destination. -/
theorem eachStepAppendsItsOneEvent : Obligations.EachStepAppendsItsOneEvent := by
  refine ⟨fun s => s.load_out, fun s t hwf hstep => ?_⟩
  obtain ⟨hhalted, rfl⟩ | ⟨hrun, rfl⟩ := step_cases hstep
  · exact .inl ⟨rfl, .inl hhalted⟩
  have hout := steppedState_out s
  by_cases hiout : fetchedB s = s.config.addrIout
  · rw [hiout, portEvents_addrIout hwf] at hout
    exact .inr (.inl ⟨hiout ▸ hout, hrun, hiout⟩)
  by_cases hcout : fetchedB s = s.config.addrCout
  · rw [hcout, portEvents_addrCout hwf] at hout
    exact .inr (.inr ⟨hcout ▸ hout, hrun, hcout⟩)
  · have hno : ¬ IsOutputPort s.config (fetchedB s) := not_or.mpr ⟨hiout, hcout⟩
    rw [portEvents_of_not_output (.inr hno), List.append_nil] at hout
    exact .inl ⟨hout, .inr hno⟩

end Sys2Proof.Machine

/-! Runs: where they end, what they leave in the output ports' cells, and that the output history does not matter
(spec 41_ports_and_halt.md R149, 70_reset_and_hazards.md R255, 10_state.md R38). -/

namespace Sys2Proof.Machine

theorem step_halted_iff {s t : State} (h : step s = .next t) :
    t.halted = true ↔ s.halted = true ∨ WritesNext s s.config.addrBrk := by
  obtain ⟨hs, rfl⟩ | ⟨hs, rfl⟩ := step_cases h
  · simp [hs]
  · simp [steppedState_halted_iff hs, hs]

/-- The steps of a run of `n + 1` steps are those of its first `n` and the last one. -/
theorem exists_step_lt_succ_iff {n : Nat} {s u : State} (Q : State → Prop) (hu : runSteps n s = .next u) :
    (∃ (k : Nat) (w : State), k < n + 1 ∧ runSteps k s = .next w ∧ Q w) ↔
      (∃ (k : Nat) (w : State), k < n ∧ runSteps k s = .next w ∧ Q w) ∨ Q u := by
  constructor
  · rintro ⟨k, w, hk, hw, hQ⟩
    obtain hlt | rfl := Nat.lt_succ_iff_lt_or_eq.mp hk
    · exact .inl ⟨k, w, hlt, hw, hQ⟩
    · cases hu.symm.trans hw
      exact .inr hQ
  · rintro (⟨k, w, hk, hw, hQ⟩ | hQ)
    · exact ⟨k, w, hk.trans n.lt_succ_self, hw, hQ⟩
    · exact ⟨n, u, n.lt_succ_self, hu, hQ⟩

/-- A run ends halted if it started so or some step of it had BRK as its destination. -/
theorem runSteps_halted_iff {n : Nat} {s t : State} (h : runSteps n s = .next t) :
    t.halted = true ↔ s.halted = true ∨
      ∃ (k : Nat) (u : State), k < n ∧ runSteps k s = .next u ∧ WritesNext u u.config.addrBrk := by
  induction n generalizing t with
  | zero => cases h; simp
  | succ n ih =>
    obtain ⟨u, hu, hlast⟩ := (runSteps_snoc n s t).mp h
    rw [step_halted_iff hlast, ih hu, or_assoc, exists_step_lt_succ_iff _ hu]

/-- A run does not go on after a step that leads to a halted core. -/
theorem step_eq_of_halting_step {n k : Nat} {s t u : State} (hk : k < n) (hn : runSteps n s = .next t)
    (hu : runSteps k s = .next u) (hbrk : WritesNext u u.config.addrBrk) : step u = .next t := by
  obtain ⟨v, hv⟩ := step_next u
  have hhalted : v.halted = true := (step_halted_iff hv).mpr (.inr hbrk)
  have hsplit := runSteps_add (k + 1) (n - (k + 1)) ((runSteps_snoc k s v).mpr ⟨u, hu, hv⟩)
  rw [Nat.add_sub_cancel' hk, hn, runSteps_of_halted hhalted] at hsplit
  rw [hv, hsplit]

/-- Settles O27: only a BRK step halts a running core, and a halted core stays as it is. -/
theorem runEndsExactlyAtTheBrkStep : Obligations.RunEndsExactlyAtTheBrkStep := by
  refine fun n s t hrun hn => ⟨?_, fun k u hk hu hbrk => step_eq_of_halting_step hk hn hu hbrk⟩
  simpa [hrun] using runSteps_halted_iff hn

/-- Once a step of a run had an output port as its destination, the port's cell holds 0. -/
theorem runSteps_readWord_outputPort {n : Nat} {s t : State} {p : Addr} (hwf : s.config.wf = true)
    (hport : IsOutputPort s.config p) (hn : runSteps n s = .next t)
    (hw : ∃ (k : Nat) (u : State), k < n ∧ runSteps k s = .next u ∧ WritesNext u p) : t.readWord p = 0 := by
  induction n generalizing t with
  | zero => obtain ⟨k, -, hk, -⟩ := hw; exact absurd hk k.not_lt_zero
  | succ n ih =>
    obtain ⟨u, hu, hlast⟩ := (runSteps_snoc n s t).mp hn
    by_cases hwrites : WritesNext u p
    · rw [step_readWord_of_writesNext hwrites hlast, runSteps_config n s u hu, finalCell_of_isOutputPort hwf hport]
    · rw [step_readWord_of_not_writesNext hwrites hlast]
      exact ih hu (((exists_step_lt_succ_iff (WritesNext · p) hu).mp hw).resolve_right hwrites)

/-- Settles O29: a port cell that no step of the run had as its destination still holds its image value, and any other
holds 0. -/
theorem outputPortCellsHoldZeroOrTheirImageValue : Obligations.OutputPortCellsHoldZeroOrTheirImageValue := by
  intro n s t image entry p hwf hport hn
  have hzero := runSteps_readWord_outputPort (s := s.load image entry) hwf hport hn
  refine ⟨?_, hzero⟩
  by_cases hw : ∃ (k : Nat) (u : State), k < n ∧ runSteps k (s.load image entry) = .next u ∧ WritesNext u p
  · exact .inl (hzero hw)
  · have hkept := runSteps_readWord_of_not_writesNext hn fun k u hk hu hwrites => hw ⟨k, u, hk, hu, hwrites⟩
    exact .inr (hkept.trans (State.readWord_load ..))

/-! ### The output history -/

/-- SUBLEQ appends the same events to any output history and does the same to the rest of the state. -/
theorem steppedState_with_out (s : State) (history : List OutEvent) :
    steppedState { s with out := history } =
      { steppedState s with
        out := history ++
          portEvents s.config (fetchedB s) (wsub (s.readWord (fetchedB s)) (s.readWord (fetchedA s))) } := by
  refine State.eq_of_fields ?_ ?_ ?_ (steppedState_out _) ?_
  · exact (subleqState_mem ..).trans (subleqState_mem _ _ (fetchedC s) s).symm
  · exact (steppedState_pc _).trans (steppedState_pc s).symm
  · exact (subleqState_halted ..).trans (subleqState_halted (fetchedA s) _ (fetchedC s) s).symm
  · exact (steppedState_config _).trans (steppedState_config s).symm

theorem step_with_out {s t : State} (h : step s = .next t) : ∃ events : List OutEvent, t.out = s.out ++ events ∧
    ∀ history, step { s with out := history } = .next { t with out := history ++ events } := by
  obtain ⟨hhalted, rfl⟩ | ⟨hrun, rfl⟩ := step_cases h
  · refine ⟨[], (List.append_nil _).symm, fun history => ?_⟩
    rw [List.append_nil]
    exact step_of_halted hhalted
  · refine ⟨_, steppedState_out s, fun history => ?_⟩
    rw [← steppedState_with_out]
    exact step_running hrun

/-- Settles O34: by induction on the run, each step appending its events to whatever came before. -/
theorem outputHistoryNeverInfluencesARun : Obligations.OutputHistoryNeverInfluencesARun := by
  intro n s t history h
  induction n generalizing t with
  | zero => cases h; exact ⟨[], (List.append_nil _).symm, by rw [List.append_nil]; rfl⟩
  | succ n ih =>
    obtain ⟨u, hu, hlast⟩ := (runSteps_snoc n s t).mp h
    obtain ⟨events, hout, hrun⟩ := ih u hu
    obtain ⟨last, hout', hstep⟩ := step_with_out hlast
    refine ⟨events ++ last, by rw [hout', hout, List.append_assoc], ?_⟩
    rw [← List.append_assoc]
    exact (runSteps_snoc ..).mpr ⟨_, hrun, hstep _⟩

/-- Settles O33: the step's effect is written in pc, the ports and the five words, which the two states share. -/
theorem stepReadsFiveCellsAndWritesOne : Obligations.StepReadsFiveCellsAndWritesOne := by
  intro s s' hrun hrun' hpc hconfig h₀ h₁ h₂ hA hB
  have ha : fetchedA s' = fetchedA s := by rw [fetchedA, hpc, h₀, fetchedA]
  have hb : fetchedB s' = fetchedB s := by rw [fetchedB, hpc, h₁, fetchedB]
  have hc : fetchedC s' = fetchedC s := by rw [fetchedC, hpc, h₂, fetchedC]
  refine ⟨_, _, _, step_running hrun, step_running hrun', ?_, ?_, ?_, steppedState_out s, ?_, fun x hx => ?_⟩
  · simp only [steppedState_pc, ha, hb, hc, hA, hB, hpc]
  · simp only [steppedState, subleqState_halted, hrun, hrun', hb, hconfig]
  · simp only [steppedState_readWord, ha, hb, hA, hB, hconfig]
  · simp only [steppedState_out, ha, hb, hA, hB, hconfig]
  · exact ⟨steppedState_readWord_of_ne hx, steppedState_readWord_of_ne (hb ▸ hx)⟩

end Sys2Proof.Machine

/-! The host's table (spec 00_scope.md R17, 70_reset_and_hazards.md R250). -/

namespace Sys2Proof.Machine

theorem hostOp_load_of_not_running {σ : Session} (image : Image) (entry : Addr) (h : σ.running = false) :
    hostOp (.load image entry) σ = some (⟨σ.core.load image entry, false⟩, .loaded) := by
  simp [hostOp, h]

/-- Settles O30: LOAD writes every field but the configuration, and its guard is the session's running flag. -/
theorem loadSetsAllState : Obligations.LoadSetsAllState := by
  refine ⟨fun s image entry => ⟨State.readWord_load s image entry, rfl, rfl, rfl, rfl⟩, fun σ image entry => ?_⟩
  by_cases h : σ.stepped = true ∧ σ.core.halted = false
  · rw [if_pos h, hostOp_load_of_running image entry (σ.running_iff.mpr h)]
  · rw [if_neg h, hostOp_load_of_not_running image entry (Bool.eq_false_iff.mpr (h ∘ σ.running_iff.mp))]

theorem portEvents_length_le (c : Config) (b : Addr) (r : Word) : (portEvents c b r).length ≤ 1 := by
  by_cases h : b ≠ c.addrBrk ∧ IsOutputPort c b
  · rw [portEvents_of_output h.1 h.2, List.length_singleton]
  · rw [portEvents_of_not_output (by tauto), List.length_nil]
    exact zero_le_one

theorem newEvents_of_out_eq {s t : State} {events : List OutEvent} (h : t.out = s.out ++ events) :
    newEvents s t = events := by
  rw [newEvents, h, List.drop_left]

/-- Settles O32: a STEP of a core that runs takes its step and answers what the step appended; the reads answer from
the state they are given. -/
theorem hostOperationsFollowTheInterfaceTable : Obligations.HostOperationsFollowTheInterfaceTable := by
  refine fun σ => ⟨hostOp_load_of_not_running, hostOp_load_of_running, fun hrun => ?_, rfl, fun _ => rfl, rfl⟩
  have hstep := step_running hrun
  have hout := steppedState_out σ.core
  refine ⟨_, _, hstep, ?_, hout, portEvents_length_le ..⟩
  rw [← newEvents_of_out_eq hout]
  simpa [hostOp, canStep, hrun] using hostStep_of_step hstep

end Sys2Proof.Machine

/-! The assembler's contracts: one triple meets them, and a call comes back (spec 42_assembler_pseudo.md R182 to
R197). -/

namespace Sys2Proof.Machine

theorem Toolchain.sizes_of_wf {p : Toolchain} (h : p.wf = true) :
    p.size .clr = 3 ∧ p.size .sub = 3 ∧ p.size .slq = 3 := by
  simpa [Toolchain.wf, and_assoc] using h

theorem nextPc_fallThrough (pc : Addr) (r : Word) : nextPc pc (aadd pc 3) r = aadd pc 3 := ite_self _

theorem step_of_fetchInstr_eq {s : State} {a b c : Addr} (hrun : s.halted = false) (h : fetchInstr s = .subleq a b c) :
    step s = .next (subleqState a b c s) := by
  rw [step_eq_exec_fetchInstr hrun, h, exec_subleq]

/-- A mnemonic whose contract is the effect of the triple at pc has its contract met by a step. -/
theorem meetsContract_subleqState {p : Toolchain} {calls : CallState} {m : Mnemonic} {s : State} {a b c : Addr}
    (code : Code) (hrun : s.halted = false) (hdest : destinations m = [b])
    (h : contract p s.pc calls m s = some (tripleEffect s.config b (subleqResult a b s)
      (nextPc s.pc c (subleqResult a b s)))) :
    MeetsContract p code s.pc calls m s (subleqState a b c s) := by
  refine ⟨_, h, subleqState_pc a b c s, ?_, subleqState_out a b c s, subleqState_config a b c s, fun x =>
    ⟨fun _ => subleqState_readWord_applyWrites a b c s x, fun hx _ => subleqState_readWord_ne a c s fun hxb => ?_⟩⟩
  · rw [subleqState_halted, hrun, Bool.false_or]
    rfl
  · exact hx (by rw [hdest, hxb]; exact List.mem_singleton_self b)

/-- Settles O39: each forced triple computes its mnemonic's value, and all three words of it fall through or jump as
the contract says. -/
theorem forcedTriplesMeetTheirContracts : Obligations.ForcedTriplesMeetTheirContracts := by
  intro p code calls s m i hwf hrun hforced hfetch
  obtain ⟨hclr, hsub, hslq⟩ := Toolchain.sizes_of_wf hwf
  cases m with
  | clr d =>
    cases hforced
    refine ⟨_, step_of_fetchInstr_eq hrun hfetch, meetsContract_subleqState code hrun rfl ?_⟩
    simp only [contract, following, mnemonicName, hclr, subleqResult, wsub_self, addr_relativeTarget_zero,
      nextPc_fallThrough, word_zero]
  | sub d x =>
    cases hforced
    refine ⟨_, step_of_fetchInstr_eq hrun hfetch, meetsContract_subleqState code hrun rfl ?_⟩
    simp only [contract, following, mnemonicName, hsub, subleqResult, addr_relativeTarget_zero, nextPc_fallThrough]
  | slq a b l =>
    cases hforced
    refine ⟨_, step_of_fetchInstr_eq hrun hfetch, meetsContract_subleqState code hrun rfl ?_⟩
    simp only [contract, following, mnemonicName, hslq, subleqResult, nextPc_eq]
  | _ => simp [forcedInstr] at hforced

/-- On an output port that holds 0 the contract of `set` is the effect of subtracting the operand once. -/
theorem setEffect_eq_tripleEffect {s : State} {d : Addr} (hbrk : d ≠ s.config.addrBrk)
    (hport : IsOutputPort s.config d) (hzero : s.readWord d = 0) (v : Word) (next : Addr) :
    setEffect s d v next = some (tripleEffect s.config d (wsub (s.readWord d) v) next) := by
  rw [setEffect, if_pos ⟨hbrk, hport⟩, if_pos hzero, tripleEffect, finalCell_of_output hbrk hport,
    portEvents_of_output hbrk hport, wneg_wsub, hzero, wsub_zero, decide_eq_false hbrk, word_zero]

/-- Settles O40: the one triple has the effect of the contract, whose event is the negation of `0 -w x`. -/
theorem oneSubtractionMeetsTheContractOfSetToAPort : Obligations.OneSubtractionMeetsTheContractOfSetToAPort := by
  intro p code calls s d x hsize hrun hbrk hport hzero hfetch
  have hnext : following p s.pc (.set d x) = aadd s.pc 3 := congrArg (aadd s.pc) hsize
  refine ⟨_, step_of_fetchInstr_eq hrun hfetch, meetsContract_subleqState code hrun rfl ?_, ?_, ?_, ?_⟩
  · simp only [contract, hnext, nextPc_fallThrough, subleqResult, setEffect_eq_tripleEffect hbrk hport hzero]
  · rw [subleqState_out, subleqResult, portEvents_of_output hbrk hport, wneg_wsub, hzero, wsub_zero]
  · rw [subleqState_readWord_destination, finalCell_of_output hbrk hport]
  · rw [subleqState_pc, nextPc_fallThrough, hnext]

/-! ### Calls -/

theorem callAfter_idle_of_call {m : Mnemonic} (p : Toolchain) (t : Addr) (h : callKind m ≠ none) :
    callAfter p t m .idle = .outstanding (following p t m) := by
  obtain ⟨k, hk⟩ := Option.ne_none_iff_exists'.mp h
  simp only [callAfter, hk]

theorem callAfter_outstanding_of_call {m : Mnemonic} (p : Toolchain) (t back : Addr) (h : callKind m ≠ none) :
    callAfter p t m (.outstanding back) = .nested := by
  obtain ⟨k, hk⟩ := Option.ne_none_iff_exists'.mp h
  simp only [callAfter, hk]

theorem callAfter_nested (p : Toolchain) (t : Addr) (m : Mnemonic) : callAfter p t m .nested = .nested := by
  cases h : callKind m <;> simp only [callAfter, h]

theorem callsAfter_nested (p : Toolchain) (code : Code) : callsAfter p code .nested = .nested := by
  induction code with
  | nil => rfl
  | cons i rest ih => rw [callsAfter_cons, callAfter_nested, ih]

/-- A second call before a `ret` nests. -/
theorem callsAfter_outstanding_of_call {body : Code} (p : Toolchain) (back : Addr) (hret : ∀ i ∈ body, i.2 ≠ .ret)
    (hcall : ∃ i ∈ body, callKind i.2 ≠ none) : callsAfter p body (.outstanding back) = .nested := by
  induction body with
  | nil => simp at hcall
  | cons i rest ih =>
    obtain ⟨hi, hrest⟩ := List.forall_mem_cons.mp hret
    rw [callsAfter_cons]
    by_cases hk : callKind i.2 = none
    · rw [callAfter_of_not_linkage p i.1 _ (by simp [IsLinkage, hk, hi])]
      exact ih hrest (((List.exists_mem_cons_iff ..).mp hcall).resolve_left (not_not.mpr hk))
    · rw [callAfter_outstanding_of_call p i.1 back hk, callsAfter_nested]

/-- A call goes to its label, with the return address in its slot and the argument where the callee finds it. -/
theorem contract_of_call {p : Toolchain} {t : Addr} {m : Mnemonic} {k : CallKind} (s : State)
    (h : callKind m = some k) : ∃ e : ContractEffect, contract p t .idle m s = some e ∧
      (m = .jsr e.next ∨ ∃ arg : Addr, m = .cll e.next arg ∧
        (p.cllArgument e.next ≠ p.cllReturn →
          (applyWrites e.writes s).readWord (p.cllArgument e.next) = s.readWord arg)) ∧
      addr ((applyWrites e.writes s).readWord (returnSlot s.config p k)) = following p t m := by
  cases m with
  | jsr l =>
    cases h
    refine ⟨_, rfl, .inl rfl, ?_⟩
    simp [State.readWord_writeWord, addr_wordOfAddr]
  | cll l arg =>
    cases h
    refine ⟨_, rfl, .inr ⟨arg, rfl, fun (hne : p.cllArgument l ≠ p.cllReturn) => ?_⟩, ?_⟩
    · simp [State.readWord_writeWord, transferEffect, returnSlot, hne]
    · simp [State.readWord_writeWord, addr_wordOfAddr]
  | _ => simp [callKind] at h

/-- Settles O41: a call leaves its return address outstanding, code without a call or `ret` keeps it so, and a second
call nests. -/
theorem singleCallReturnsToTheFollowingInstruction : Obligations.SingleCallReturnsToTheFollowingInstruction := by
  intro p t t' m k s s' body hk
  refine ⟨contract_of_call s hk, fun hret => ?_⟩
  simp only [callAfter_idle_of_call p t (by simp [hk] : callKind m ≠ none)]
  refine ⟨fun hnone => ?_, fun hcall => ?_⟩
  · rw [callsAfter_of_not_linkage p _ fun i hi => by simp [IsLinkage, hnone i hi, hret i hi]]
    exact ⟨rfl, rfl⟩
  · rw [callsAfter_outstanding_of_call p _ hret hcall]
    rfl

/-! ### Example E9 -/

section MeetsContract
variable {p : Toolchain} {code : Code} {t : Addr} {calls : CallState} {m : Mnemonic} {σ σ' : State}

/-- Meeting a known contract, part by part. -/
theorem MeetsContract.of_contract_eq {e : ContractEffect} (h : MeetsContract p code t calls m σ σ')
    (he : contract p t calls m σ = some e) :
    σ'.pc = e.next ∧ σ'.halted = e.halts ∧ σ'.out = σ.out ++ e.events ∧ σ'.config = σ.config ∧
      ∀ x ∈ e.writes.map Prod.fst, σ'.readWord x = (applyWrites e.writes σ).readWord x := by
  obtain ⟨e', he', hpc, hhalted, hout, hconfig, hcells⟩ := h
  obtain rfl := Option.some.inj (he.symm.trans he')
  exact ⟨hpc, hhalted, hout, hconfig, fun x => (hcells x).1⟩

theorem MeetsContract.readWord_of_not_mayAlter {x : Addr} (h : MeetsContract p code t calls m σ σ')
    (hx : x ∉ destinations m) (halter : ¬ MayAlter σ.config p code t m x) : σ'.readWord x = σ.readWord x := by
  obtain ⟨_, -, -, -, -, -, hcells⟩ := h
  exact (hcells x).2 hx halter

/-- A call emits nothing, keeps the ports and names no destination. -/
theorem MeetsContract.of_call (h : MeetsContract p code t calls m σ σ') (hm : callKind m ≠ none) :
    σ'.out = σ.out ∧ σ'.config = σ.config ∧ destinations m = [] := by
  cases m with
  | jsr l =>
    obtain ⟨-, -, hout, hconfig, -⟩ := h.of_contract_eq rfl
    exact ⟨hout.trans (List.append_nil _), hconfig, rfl⟩
  | cll l arg =>
    obtain ⟨-, -, hout, hconfig, -⟩ := h.of_contract_eq rfl
    exact ⟨hout.trans (List.append_nil _), hconfig, rfl⟩
  | _ => exact absurd rfl hm

theorem MeetsContract.of_inc {d : Addr} (h : MeetsContract p code t calls (.inc d) σ σ') (hd : ¬ IsPort σ.config d) :
    σ'.out = σ.out ∧ σ'.config = σ.config ∧ σ'.readWord d = wadd (σ.readWord d) (word 1) := by
  obtain ⟨-, -, hout, hconfig, hcells⟩ := h.of_contract_eq (if_neg hd)
  refine ⟨hout.trans (List.append_nil _), hconfig, (hcells d (List.mem_singleton_self d)).trans ?_⟩
  rw [applyWrites_cons, applyWrites_nil, State.readWord_writeWord, if_pos rfl]

theorem MeetsContract.of_ret {back : Addr} (h : MeetsContract p code t (.outstanding back) .ret σ σ') :
    σ'.pc = back ∧ σ'.halted = false ∧ σ'.out = σ.out := by
  obtain ⟨hpc, hhalted, hout, -⟩ := h.of_contract_eq rfl
  exact ⟨hpc, hhalted, hout.trans (List.append_nil _)⟩

/-- Where `set IOUT x` has a contract, it is one DEC of the operand's word. -/
theorem setEffect_addrIout_eq_some {v : Word} {next : Addr} {e : ContractEffect}
    (h : setEffect σ σ.config.addrIout v next = some e) : e.events = [⟨.dec, v⟩] ∧ e.next = next := by
  have hport : IsPort σ.config σ.config.addrIout := .inr (.inl rfl)
  simp only [setEffect, cellEffect, hport, if_true] at h
  split at h
  · split at h
    · cases h
      exact ⟨rfl, rfl⟩
    · cases h
  · cases h

theorem MeetsContract.of_set_addrIout {x : Addr}
    (h : MeetsContract p code t calls (.set σ.config.addrIout x) σ σ') :
    σ'.out = σ.out ++ [⟨.dec, σ.readWord x⟩] ∧ σ'.pc = following p t (.set σ.config.addrIout x) := by
  obtain ⟨e, he, hpc, -, hout, -⟩ := h
  obtain ⟨hevents, hnext⟩ := setEffect_addrIout_eq_some he
  exact ⟨hevents ▸ hout, hnext ▸ hpc⟩

end MeetsContract

/-- Settles O42: the call and `ret` keep the variable, `inc` does not touch the call state, and `ret` goes on at the
one outstanding return address. -/
theorem singleCallPrintsTheIncrementedVariable : Obligations.SingleCallPrintsTheIncrementedVariable := by
  intro p code t r m d s₀ s₁ s₂ s₃ s₄ hm hport hscratch hcode hmem hret hcall hinc hback
  have hcalls : callsAfter p [(t, m), (s₁.pc, .inc d)] .idle = .outstanding (following p t m) := by
    rw [callsAfter_cons, callAfter_idle_of_call p t hm, callsAfter_cons, callsAfter_nil,
      callAfter_of_not_linkage p s₁.pc _ (by simp [IsLinkage, callKind])]
  rw [hcalls] at hback
  obtain ⟨hout₁, hconfig₁, hdest⟩ := hcall.of_call hm
  obtain ⟨hout₂, hconfig₂, hd₂⟩ := hinc.of_inc (hconfig₁ ▸ hport)
  obtain ⟨hpc₃, hhalted₃, hout₃⟩ := hback.of_ret
  have hd₁ : s₁.readWord d = s₀.readWord d :=
    hcall.readWord_of_not_mayAlter (by simp [hdest]) (not_mayAlter hmem hscratch hcode)
  have hd₃ : s₃.readWord d = s₂.readWord d :=
    hback.readWord_of_not_mayAlter List.not_mem_nil
      (not_mayAlter hret (by rwa [hconfig₂, hconfig₁]) hcode)
  have hout : s₃.out = s₀.out := by rw [hout₃, hout₂, hout₁]
  have hd : s₃.readWord d = wadd (s₀.readWord d) (word 1) := by rw [hd₃, hd₂, hd₁]
  refine ⟨hpc₃, hhalted₃, hout, hd, fun hset => ?_⟩
  rw [← hout, ← hd]
  exact hset.of_set_addrIout

end Sys2Proof.Machine
